-- ==== Sys2Proof/Word.lean ====
section
/-! DEFINITION. The word types of GSCORE: 32-bit registers (10_state.md R21) and 8-bit bytes (20_memory.md R61). -/

namespace Sys2Proof

/-- A register, a command word or a record slot: 32 bits (R21). -/
abbrev Word := BitVec 32

/-- A byte of the input buffer (R61). -/
abbrev Byte := BitVec 8

end Sys2Proof
end

