-- ==== Sys2Proof/Config.lean ====
section
/-! DEFINITION. The named parameters of 00_scope.md R9 and the schema registry of 10_state.md R30, R31.
They are fixed for the life of an instance; State carries them in one field that no step writes (log entry 1). -/

namespace Sys2Proof

/-- Where a scan resumes after a candidate of length `L` at `i` (R9, R184): at `i + L + 1` or at `i + L + 6`. -/
inductive ScanResume where
  | lenPlus1
  | lenPlus6
deriving DecidableEq, Repr

/-- A field descriptor (R31). GSCORE reads only `code`, the resolution of `tag` made once when the
registry is built (R90); `name` labels record values and `tag` is kept so that a host can report it. -/
structure Descriptor where
  name : String
  description : String
  tag : String
  code : BitVec 8
deriving DecidableEq, Repr

/-- A schema entry (R30): the header descriptors and the content descriptors, in declared order. -/
structure SchemaEntry where
  header : List Descriptor
  content : List Descriptor
deriving DecidableEq, Repr

/-- The schema registry (R30): the identifiers that are present, with their entries. An identifier that
is not listed is `absent`. Its canonical form (identifiers rising and below 4096) is `Config.wf`. -/
abbrev Registry := List (Nat × SchemaEntry)

/-- The parameters of R9. -/
structure Config where
  /-- `BUF_BYTES_MAX`, the largest buffer a load may supply, `1 .. 2^29 - 1`. -/
  bufBytesMax : Nat
  /-- `REC_MAX`, the number of record slots, `4 .. 3840`. -/
  recMax : Nat
  /-- `SCAN_RESUME`. -/
  scanResume : ScanResume
  /-- `CONTENT_SKIP_FIRST`. -/
  contentSkipFirst : Bool
  /-- `REGISTRY`. -/
  registry : Registry
deriving DecidableEq, Repr

/-- The parameters `State.reset` is given. DESIGN CHOICE (log entry 1): R9 leaves `BUF_BYTES_MAX`, `REC_MAX` and
`REGISTRY` open; the first two take the values R9 names for the test vectors and the registry is empty.
`SCAN_RESUME` and `CONTENT_SKIP_FIRST` take R9's reference values. -/
def Config.reference : Config :=
  { bufBytesMax := 65536
    recMax := 256
    scanResume := .lenPlus1
    contentSkipFirst := true
    registry := [] }

end Sys2Proof
end

