-- ==== Sys2Proof/Syntax.lean ====
section
/-! DEFINITION. The nine commands of 30_encoding.md R82, one constructor per row of spec/opcode_table.json. -/

namespace Sys2Proof

/-- A command. The operand of `rdU` and `rdS` is the read width `w = WM1 + 1` (R83), as the assembler
writes it (R93); `1 ≤ w ≤ 32` is checked by `Instr.wf`. The bit `S` (R84) selects between `rdU` and `rdS`, and the
bit `SRC` (R85) between `decCand` and `decWin`. -/
inductive Instr where
  /-- `nop` (R116). -/
  | nop
  /-- `cur.set` (R117). -/
  | curSet
  /-- `rd.u W` (R118). -/
  | rdU (w : Nat)
  /-- `rd.s W` (R119). -/
  | rdS (w : Nat)
  /-- `cur.clr` (R120). -/
  | curClr
  /-- `scan.start` (R189). -/
  | scanStart
  /-- `scan.next` (R190). -/
  | scanNext
  /-- `dec.cand` (R155). -/
  | decCand
  /-- `dec.win` (R156). -/
  | decWin
deriving DecidableEq, Repr

end Sys2Proof
end

