-- ==== Sys2Proof/WellFormed.lean ====
section
/-! DEFINITION. Which commands are well formed: a read has a width of 1 to 32 bits (30_encoding.md R83, R93). -/

namespace Sys2Proof

/-- A legal read width: exactly `1 .. 32` (R83). -/
def legalWidth (w : Nat) : Bool := decide (1 ≤ w) && decide (w ≤ 32)

/-- Well-formedness of a command: the width of a read is legal; the other commands have no operand. -/
def Instr.wf : Instr → Bool
  | .nop => true
  | .curSet => true
  | .rdU w => legalWidth w
  | .rdS w => legalWidth w
  | .curClr => true
  | .scanStart => true
  | .scanNext => true
  | .decCand => true
  | .decWin => true

end Sys2Proof
end

