-- ==== Sys2Proof/Decode.lean ====
section
/-! DEFINITION. The encodings of 30_encoding.md: the command word (R80 to R88) with its decoder and encoder, and
the descriptor code with the resolution of type tags (R89 to R92). -/

namespace Sys2Proof

/-- Bits `hi` down to `lo` of a register or command word, read as an unsigned integer (00_scope.md R12). -/
def bitField (v : Word) (hi lo : Nat) : Nat := v.toNat / 2 ^ lo % 2 ^ (hi - lo + 1)

/-- Why a word is not one of the nine commands. -/
inductive DecodeError where
  /-- `OPC` is none of 0x00, 0x01, 0x02, 0x03, 0x10, 0x11, 0x20 (R86). -/
  | reservedOpcode
  /-- The `OPC` is legal and a bit its format marks "must be zero" is 1 (R87). -/
  | mustBeZero
deriving DecidableEq, Repr

/-- Format N (R81): no operand, bits 23:0 must be zero. -/
def decodeFormatN (i : Instr) (v : Word) : Except DecodeError Instr :=
  if bitField v 23 0 = 0 then .ok i else .error .mustBeZero

/-- Format R (R81, R83, R84): bits 23:6 must be zero, `S` is bit 5 and `WM1` is bits 4:0. -/
def decodeFormatR (v : Word) : Except DecodeError Instr :=
  if bitField v 23 6 = 0 then
    if bitField v 5 5 = 1 then .ok (.rdS (bitField v 4 0 + 1)) else .ok (.rdU (bitField v 4 0 + 1))
  else .error .mustBeZero

/-- Format D (R81, R85): bits 23:1 must be zero and `SRC` is bit 0. -/
def decodeFormatD (v : Word) : Except DecodeError Instr :=
  if bitField v 23 1 = 0 then
    if bitField v 0 0 = 1 then .ok .decWin else .ok .decCand
  else .error .mustBeZero

/-- The command decoder (R82): total on every word, and every word is either a command or rejected by
name (R86, R87, R88). -/
def decode (v : Word) : Except DecodeError Instr :=
  let opc := bitField v 31 24
  if opc = 0x00 then decodeFormatN .nop v
  else if opc = 0x01 then decodeFormatN .curSet v
  else if opc = 0x02 then decodeFormatR v
  else if opc = 0x03 then decodeFormatN .curClr v
  else if opc = 0x10 then decodeFormatN .scanStart v
  else if opc = 0x11 then decodeFormatN .scanNext v
  else if opc = 0x20 then decodeFormatD v
  else .error .reservedOpcode

/-- The command word of a well-formed command (R93). -/
def encode : Instr → Word
  | .nop => 0x00000000
  | .curSet => 0x01000000
  | .rdU w => 0x02000000 ||| BitVec.ofNat 32 (w - 1)
  | .rdS w => 0x02000020 ||| BitVec.ofNat 32 (w - 1)
  | .curClr => 0x03000000
  | .scanStart => 0x10000000
  | .scanNext => 0x11000000
  | .decCand => 0x20000000
  | .decWin => 0x20000001

/-- What the decoder reads from an instruction of `nbits` bits `w`: a command is one 32-bit word (R80), the
bits above `nbits` are 0, and a number that does not fit a command word is no command. -/
def decodeTableWord (nbits w : Nat) : Option Instr :=
  let v := w % 2 ^ nbits
  if v < 2 ^ 32 then
    match decode (BitVec.ofNat 32 v) with
    | .ok i => some i
    | .error _ => none
  else none

/-- The mnemonic of a command (R82, R93). -/
def Instr.mnemonic : Instr → String
  | .nop => "nop"
  | .curSet => "cur.set"
  | .rdU _ => "rd.u"
  | .rdS _ => "rd.s"
  | .curClr => "cur.clr"
  | .scanStart => "scan.start"
  | .scanNext => "scan.next"
  | .decCand => "dec.cand"
  | .decWin => "dec.win"

/-- The `match` word of a command's row in R82. -/
def Instr.matchWord : Instr → Word
  | .nop => 0x00000000
  | .curSet => 0x01000000
  | .rdU _ => 0x02000000
  | .rdS _ => 0x02000020
  | .curClr => 0x03000000
  | .scanStart => 0x10000000
  | .scanNext => 0x11000000
  | .decCand => 0x20000000
  | .decWin => 0x20000001

/-- The `mask` word of a command's row in R82. -/
def Instr.maskWord : Instr → Word
  | .nop => 0xFFFFFFFF
  | .curSet => 0xFFFFFFFF
  | .rdU _ => 0xFFFFFFE0
  | .rdS _ => 0xFFFFFFE0
  | .curClr => 0xFFFFFFFF
  | .scanStart => 0xFFFFFFFF
  | .scanNext => 0xFFFFFFFF
  | .decCand => 0xFFFFFFFF
  | .decWin => 0xFFFFFFFF

/-! ## Descriptor codes and type tags -/

/-- A descriptor code is valid when `V = 1` (bit 7) and bit 6 is 0 (R89). -/
def codeValid (c : BitVec 8) : Bool := c.getLsbD 7 && !c.getLsbD 6

/-- The width a valid code names, `WM1 + 1` (R89). -/
def codeWidth (c : BitVec 8) : Nat := c.toNat % 32 + 1

/-- The signedness a valid code names, `S = 1` (R89). -/
def codeSigned (c : BitVec 8) : Bool := c.getLsbD 5

/-- The value of a string of decimal digits, most significant first, on top of `acc`; none if some
character is no decimal digit. -/
def decimalDigits (acc : Nat) : List Char → Option Nat
  | [] => some acc
  | c :: cs => if '0' ≤ c ∧ c ≤ '9' then decimalDigits (10 * acc + (c.toNat - '0'.toNat)) cs else none

/-- `number ::= nonzero-digit digit*` (R90): decimal, no sign, no leading zero, no spaces. -/
def parseNumber : List Char → Option Nat
  | [] => none
  | '0' :: _ => none
  | cs => decimalDigits 0 cs

/-- A number that is a legal width, `1 .. 32` (R90). -/
def parseWidth (cs : List Char) : Option Nat :=
  match parseNumber cs with
  | some n => if legalWidth n then some n else none
  | none => none

/-- The width and signedness a tag names (R90), from its characters; none if the tag does not resolve. -/
def parseTag : List Char → Option (Nat × Bool)
  | 'u' :: 'i' :: 'n' :: 't' :: cs => (parseWidth cs).map fun n => (n, false)
  | 'b' :: 'i' :: 't' :: cs => (parseWidth cs).map fun n => (n, false)
  | 'i' :: 'n' :: 't' :: cs => (parseWidth cs).map fun n => (n, true)
  | _ => none

/-- The descriptor code of a width and a signedness (R89, R90): `0x80 | (N - 1)`, or `0xA0 | (N - 1)` if signed. -/
def fieldCode (w : Nat) (signed : Bool) : BitVec 8 :=
  (if signed then 0xA0#8 else 0x80#8) ||| BitVec.ofNat 8 (w - 1)

/-- Type-tag resolution (R90): the code of a tag, or 0x00 if the tag does not resolve (R92). -/
def resolveTag (tag : String) : BitVec 8 :=
  match parseTag tag.toList with
  | some (w, signed) => fieldCode w signed
  | none => 0x00

/-- A descriptor as the registry's builder makes it (R31, R231): its code is computed from its tag. -/
def mkDescriptor (name description tag : String) : Descriptor :=
  { name := name, description := description, tag := tag, code := resolveTag tag }

end Sys2Proof
end

