-- ==== Sys2Proof/Machine/State.lean ====
section
/-! DEFINITION. The state of one GSCORE instance (10_state.md R20, R24 to R38) and its value after reset (R44), with
the faults and refusals a step can end in. -/

namespace Sys2Proof.Machine

/-- The input buffer's bytes: `(address, byte)` pairs in one canonical form, addresses strictly rising and
no entry `0x00` (an address that is not listed reads as `0x00`). Only addresses below `BUF_LEN` exist (R61). -/
abbrev Memory := List Host.Cell

/-- The six command errors (60_exceptions.md R201); their codes are in `CmdError.code`. -/
inductive CmdError where
  | illegalCmd
  | noCursor
  | outOfRange
  | windowRange
  | noScan
  | noCandidate
deriving DecidableEq, Repr

/-- The four frame outcomes of a decode (60_exceptions.md R202). -/
inductive FrameOutcome where
  | record
  | skip
  | configError
  | truncated
deriving DecidableEq, Repr

/-- Which list of a schema entry a descriptor stands in (R29 `LIST`, R145). -/
inductive DescList where
  | header
  | content
deriving DecidableEq, Repr

/-- Why a decode ended in a configuration error (R29 `REASON`). -/
inductive CfgReason where
  /-- 0: the descriptor's type tag has no resolution (R148). -/
  | tag
  /-- 1: the schema entry needs more than `REC_MAX` record slots (R147). -/
  | size
deriving DecidableEq, Repr

/-- `STATUS` (R27), one field each; its reserved bits 31:10 read 0 (`Status.word`). -/
structure Status where
  /-- `ERR`: none is code 0, the last command completed. -/
  err : Option CmdError
  /-- `ERR_STICKY`. -/
  errSticky : Bool
  /-- `CUR_VALID`. -/
  curValid : Bool
  /-- `SCAN_ACTIVE`. -/
  scanActive : Bool
  /-- `SCAN_DONE`. -/
  scanDone : Bool
  /-- `CAND_VALID`. -/
  candValid : Bool
  /-- `RES_SIGNED`. -/
  resSigned : Bool
deriving DecidableEq, Repr

/-- `FR_INFO` (R28). -/
structure FrInfo where
  /-- `OUTCOME`: none is 0 NONE. -/
  outcome : Option FrameOutcome
  /-- `MSG_VALID` and `MSG`: some identifier when `MSG_VALID = 1`; otherwise `MSG` is 0. -/
  msg : Option (BitVec 12)
deriving DecidableEq, Repr

/-- `FR_ERR` (R29); all of it is 0 when every field has its first value. -/
structure FrErr where
  /-- `IDX`. -/
  idx : BitVec 16
  /-- `LIST`. -/
  list : DescList
  /-- `REASON`. -/
  reason : CfgReason
deriving DecidableEq, Repr

/-- The host's three actions (R40). -/
inductive HostAction where
  /-- `HostWrite(idx, v)`. -/
  | write (idx : BitVec 12) (v : Word)
  /-- `HostRead(idx)`. -/
  | read (idx : BitVec 12)
  /-- `HostLoad(bytes)`. -/
  | load (bytes : List Byte)
deriving DecidableEq, Repr

/-- The state of one instance (R20). `ID` is a constant (R41) and `CMD` reads 0 (R43), so neither has a field. The last
two fields are the model's own: what the host still has to do, and what its reads have returned (log entries 2 and 3). -/
structure State where
  /-- The parameters (R9, R30); no step writes them. -/
  cfg : Config
  /-- `Buf` (R61). -/
  buf : Memory
  /-- `BUF_LEN` (R38). -/
  bufLen : Word
  /-- `STATUS` (R27). -/
  status : Status
  /-- `ARG0` (R37). -/
  arg0 : Word
  /-- `ARG1` (R37). -/
  arg1 : Word
  /-- `WIN_START` (R26). -/
  winStart : Word
  /-- `WIN_LEN` (R26). -/
  winLen : Word
  /-- `CUR_OFF` (R25). -/
  curOff : Word
  /-- `RESULT` (R34). -/
  result : Word
  /-- `SCAN_POS` (R35). -/
  scanPos : Word
  /-- `CAND_START` (R35). -/
  candStart : Word
  /-- `CAND_LEN` (R35). -/
  candLen : Word
  /-- `CAND_SPAN` (R35). -/
  candSpan : Word
  /-- `FR_INFO` (R28). -/
  frInfo : FrInfo
  /-- `FR_ERR` (R29). -/
  frErr : FrErr
  /-- `REC_COUNT` (R33). -/
  recCount : Word
  /-- `CNT_REC` (R36). -/
  cntRec : Word
  /-- `CNT_SKIP` (R36). -/
  cntSkip : Word
  /-- `CNT_CFG` (R36). -/
  cntCfg : Word
  /-- `CNT_TRUNC` (R36). -/
  cntTrunc : Word
  /-- `REC_VAL[0 .. REC_MAX-1]` (R32). -/
  recVal : List Word
  /-- The model's own: the host's actions still to come, the next one first (log entry 2). -/
  hostQueue : List HostAction
  /-- The model's own: the values the host's reads have returned, the oldest first (log entry 3). -/
  replies : List Word
deriving DecidableEq, Repr

/-- Why a step stops. Neither fault is reached from a state that meets `State.Inv` (R45, R61). -/
inductive Fault where
  /-- A bit read by `rd.u`, `rd.s` or a decode would take its last bit from the byte at `addr`, and
  `addr ≥ BUF_LEN`: the byte does not exist (R61). Raised only in a state whose window reaches outside the buffer, which R26
  rules out. Safe: the model stops (log entry 7). -/
  | bufferRange (addr : Nat)
  /-- `dec.cand` with `CAND_START > BUF_LEN`: the candidate's window would have a negative length. Raised only in a
  state R45 rules out. Safe: the model stops (log entry 8). -/
  | candidateRange (start : Word)
deriving DecidableEq, Repr

/-- Why a step has no meaning. -/
inductive Refusal where
  /-- A command that has no meaning yet; no arm of `exec` answers it. Safe. -/
  | notModelled (mnemonic : String)
  /-- `HostLoad` of more than `BUF_BYTES_MAX` bytes: "the load is refused (no state changes; the model has no step for
  it)" (20_memory.md R63). Safe. -/
  | oversizedLoad (bytes : Nat)
deriving DecidableEq, Repr

/-- `STATUS` with every field 0 (R44). -/
def Status.zero : Status :=
  { err := none
    errSticky := false
    curValid := false
    scanActive := false
    scanDone := false
    candValid := false
    resSigned := false }

/-- `FR_INFO` with every field 0 (R44). -/
def FrInfo.zero : FrInfo := { outcome := none, msg := none }

/-- `FR_ERR` with every field 0 (R44). -/
def FrErr.zero : FrErr := { idx := 0, list := .header, reason := .tag }

/-- The state after reset of an instance with the parameters `c` (R44, 70_reset_and_hazards.md R230). -/
def State.resetWith (c : Config) : State :=
  { cfg := c
    buf := []
    bufLen := 0
    status := Status.zero
    arg0 := 0
    arg1 := 0
    winStart := 0
    winLen := 0
    curOff := 0
    result := 0
    scanPos := 0
    candStart := 0
    candLen := 0
    candSpan := 0
    frInfo := FrInfo.zero
    frErr := FrErr.zero
    recCount := 0
    cntRec := 0
    cntSkip := 0
    cntCfg := 0
    cntTrunc := 0
    recVal := List.replicate c.recMax 0
    hostQueue := []
    replies := [] }

/-- The state after reset with the parameters `Config.reference` (log entry 1). -/
def State.reset : State := State.resetWith Config.reference

end Sys2Proof.Machine
end

