-- ==== Sys2Proof/Machine/Flags.lean ====
section
/-! DEFINITION. The word views of `STATUS`, `FR_INFO` and `FR_ERR` (10_state.md R27, R28, R29): where each field stands
in the register, and the codes of errors and outcomes (60_exceptions.md R201, R202). -/

namespace Sys2Proof.Machine

/-- The code of a command error (R201). -/
def CmdError.code : CmdError → Nat
  | .illegalCmd => 1
  | .noCursor => 2
  | .outOfRange => 3
  | .windowRange => 4
  | .noScan => 5
  | .noCandidate => 6

/-- The value of `STATUS.ERR` (R201): 0 when the command completed. -/
def errCode : Option CmdError → Nat
  | none => 0
  | some e => e.code

/-- The code of a frame outcome (R202). -/
def FrameOutcome.code : FrameOutcome → Nat
  | .record => 1
  | .skip => 2
  | .configError => 3
  | .truncated => 4

/-- The value of `FR_INFO.OUTCOME` (R202): 0 when no decode has run since reset. -/
def outcomeCode : Option FrameOutcome → Nat
  | none => 0
  | some o => o.code

/-- The value of `FR_ERR.LIST` (R29). -/
def DescList.code : DescList → Nat
  | .header => 0
  | .content => 1

/-- The value of `FR_ERR.REASON` (R29). -/
def CfgReason.code : CfgReason → Nat
  | .tag => 0
  | .size => 1

/-- `STATUS` as a word (R27): `ERR` in bits 3:0, then one flag a bit, bits 31:10 zero. -/
def Status.word (t : Status) : Word :=
  BitVec.ofNat 32
    (errCode t.err + 2 ^ 4 * t.errSticky.toNat + 2 ^ 5 * t.curValid.toNat + 2 ^ 6 * t.scanActive.toNat
      + 2 ^ 7 * t.scanDone.toNat + 2 ^ 8 * t.candValid.toNat + 2 ^ 9 * t.resSigned.toNat)

/-- `FR_INFO` as a word (R28): `OUTCOME` in bits 2:0, `MSG_VALID` bit 3, `MSG` in bits 15:4, bits 31:16 zero. -/
def FrInfo.word (f : FrInfo) : Word :=
  BitVec.ofNat 32
    (outcomeCode f.outcome +
      match f.msg with
      | none => 0
      | some id => 2 ^ 3 + 2 ^ 4 * id.toNat)

/-- `FR_ERR` as a word (R29): `IDX` in bits 15:0, `LIST` bit 16, `REASON` bit 17, bits 31:18 zero. -/
def FrErr.word (f : FrErr) : Word :=
  BitVec.ofNat 32 (f.idx.toNat + 2 ^ 16 * f.list.code + 2 ^ 17 * f.reason.code)

end Sys2Proof.Machine
end

