-- ==== Sys2Proof/Machine/Ops.lean ====
section
/-! DEFINITION. The named operations over the buffer and the registers: reading and loading `Buf` (20_memory.md R61, R63), the
number primitives (00_scope.md R13, R14), the error entry (60_exceptions.md R205), and one operation for each group of
registers that the rules write together. -/

namespace Sys2Proof.Machine

/-! ## The input buffer -/

/-- What an address of the buffer that is not listed reads as. Every byte of the buffer is written by the load that
makes it (R63), so this is only how a byte `0x00` is held (log entry 7). -/
def Memory.unlisted : Byte := 0x00

/-- `Buf[a]` (R13). It means something for `a < BUF_LEN` (R61); the operations that use it make that test. -/
def Memory.get : Memory → Nat → Byte
  | [], _ => Memory.unlisted
  | (k, b) :: m, a => if a = k then b else Memory.get m a

/-- The cells of `bytes` laid from address `a` on, in canonical form. -/
def Memory.ofBytesFrom : Nat → List Byte → Memory
  | _, [] => []
  | a, b :: bs =>
    if b = Memory.unlisted then Memory.ofBytesFrom (a + 1) bs else (a, b) :: Memory.ofBytesFrom (a + 1) bs

/-- `Buf <- bytes` (R63): the buffer that holds exactly `bytes` from address 0 on. -/
def Memory.ofBytes (bytes : List Byte) : Memory := Memory.ofBytesFrom 0 bytes

/-- All addresses listed are at least `a`, strictly rising, and no entry is what an unlisted address reads as. -/
def Memory.wfFrom : Nat → Memory → Bool
  | _, [] => true
  | a, (k, b) :: m => decide (a ≤ k) && decide (b ≠ Memory.unlisted) && Memory.wfFrom (k + 1) m

/-- The canonical form of a buffer: equal buffers are equal lists. -/
def Memory.wf (m : Memory) : Bool := Memory.wfFrom 0 m

/-- Every listed address is below `n`. -/
def Memory.below (n : Nat) (m : Memory) : Bool := m.all fun c => decide (c.1 < n)

/-! ## Number primitives (R13, R14) -/

/-- `zext_32(u)`. -/
def zext32 (u : Nat) : Word := BitVec.ofNat 32 u

/-- `sext_32(v)`: `v mod 2^32`. -/
def sext32 (v : Int) : Word := BitVec.ofInt 32 v

/-- `signed_w(u)`: `u - 2^w` if bit `w - 1` of `u` is 1, else `u`. -/
def signedW (w u : Nat) : Int := if u / 2 ^ (w - 1) % 2 = 1 then (u : Int) - 2 ^ w else u

/-- `toSigned32(x)`: `x - 2^32` if `x[31] = 1`, else `x`. -/
def toSigned32 (x : Word) : Int := if x.getLsbD 31 then (x.toNat : Int) - 2 ^ 32 else x.toNat

/-- The 32-bit pattern of a field of width `w` whose bits are `u` (R32, R34): zero-extended, or the two's complement value
sign-extended. -/
def fieldPattern (signed : Bool) (w u : Nat) : Word :=
  if signed then sext32 (signedW w u) else zext32 u

/-! ## Errors (R205, R206) -/

/-- The error entry, `raise E` (R205): `ERR` and `ERR_STICKY`, and nothing else. -/
def raiseError (e : CmdError) (s : State) : State :=
  { s with status := { s.status with err := some e, errSticky := true } }

/-- The end of a command that raises no error (40_cursor.md R110): `ERR <- 0`. There is no return from an error:
the next command runs normally and `ERR_STICKY` stays (R206). -/
def completeCommand (s : State) : State :=
  { s with status := { s.status with err := none } }

/-! ## The cursor -/

/-- A cursor over `[ws, ws + wl)` at offset 0 (40_cursor.md R117, 41_decoder.md R141). -/
def openCursor (ws wl : Word) (s : State) : State :=
  { s with winStart := ws, winLen := wl, curOff := 0, status := { s.status with curValid := true } }

/-- `CUR_VALID <- 0` (R115). -/
def closeCursor (s : State) : State :=
  { s with status := { s.status with curValid := false } }

/-- `CUR_OFF <- o + w` (R118, R119, R142). -/
def advanceCursor (w : Nat) (s : State) : State :=
  { s with curOff := BitVec.ofNat 32 (s.curOff.toNat + w) }

/-- `RESULT` and `RES_SIGNED` (R34). -/
def setResult (signed : Bool) (v : Word) (s : State) : State :=
  { s with result := v, status := { s.status with resSigned := signed } }

/-! ## The scanner -/

/-- `scan.start`'s writes (42_scanner.md R189). -/
def beginScan (s : State) : State :=
  { s with
    scanPos := 0
    status := { s.status with scanActive := true, scanDone := false, candValid := false } }

/-- The candidate at `i` with length `len`, and the scan to resume at `next` (42_scanner.md R190). -/
def setCandidate (i len next : Nat) (s : State) : State :=
  { s with
    candStart := BitVec.ofNat 32 i
    candLen := BitVec.ofNat 32 len
    candSpan := BitVec.ofNat 32 (len + 6)
    scanPos := BitVec.ofNat 32 next
    status := { s.status with candValid := true } }

/-- The scan is done at `i` (42_scanner.md R190). -/
def endScan (i : Nat) (s : State) : State :=
  { s with
    scanPos := BitVec.ofNat 32 i
    status := { s.status with scanDone := true, candValid := false } }

/-! ## The decoder -/

/-- `REC_COUNT`, `FR_INFO` and `FR_ERR` at the start of a decode (41_decoder.md R141). -/
def clearFrame (s : State) : State :=
  { s with recCount := 0, frInfo := FrInfo.zero, frErr := FrErr.zero }

/-- `REC_VAL[REC_COUNT] <- v; REC_COUNT <- REC_COUNT + 1` (41_decoder.md R142). -/
def pushSlot (v : Word) (s : State) : State :=
  { s with recVal := s.recVal.set s.recCount.toNat v, recCount := BitVec.ofNat 32 (s.recCount.toNat + 1) }

/-- `FR_INFO.MSG <- id; FR_INFO.MSG_VALID <- 1` (41_decoder.md R143). -/
def setMessage (id : BitVec 12) (s : State) : State :=
  { s with frInfo := { s.frInfo with msg := some id } }

/-- `FR_ERR <- (REASON, LIST, IDX)` (41_decoder.md R147, R148). -/
def setFrErr (e : FrErr) (s : State) : State := { s with frErr := e }

/-- The outcome's counter, incremented modulo 2^32 (10_state.md R36). -/
def countOutcome (o : FrameOutcome) (s : State) : State :=
  match o with
  | .record => { s with cntRec := s.cntRec + 1 }
  | .skip => { s with cntSkip := s.cntSkip + 1 }
  | .configError => { s with cntCfg := s.cntCfg + 1 }
  | .truncated => { s with cntTrunc := s.cntTrunc + 1 }

/-- `FR_INFO.OUTCOME <- o` (R150). -/
def setOutcome (o : FrameOutcome) (s : State) : State :=
  { s with frInfo := { s.frInfo with outcome := some o } }

/-- `finish(o)` (41_decoder.md R150). -/
def finishFrame (o : FrameOutcome) (s : State) : State :=
  completeCommand (closeCursor (countOutcome o (setOutcome o s)))

/-! ## The host's writes -/

/-- A host write to `ARG0` (R37, R40). -/
def setArg0 (v : Word) (s : State) : State := { s with arg0 := v }

/-- A host write to `ARG1` (R37, R40). -/
def setArg1 (v : Word) (s : State) : State := { s with arg1 := v }

/-- The writes of a buffer load that is not refused (20_memory.md R63): the cursor, the scan and the candidate over
the old bytes end, and every other register and slot keeps its value. -/
def loadBuffer (bytes : List Byte) (s : State) : State :=
  { s with
    buf := Memory.ofBytes bytes
    bufLen := BitVec.ofNat 32 bytes.length
    status :=
      { s.status with curValid := false, scanActive := false, scanDone := false, candValid := false } }

/-- The host's next action is taken (log entry 2). -/
def setQueue (q : List HostAction) (s : State) : State := { s with hostQueue := q }

/-- A host read has returned `v` (log entry 3). -/
def pushReply (v : Word) (s : State) : State := { s with replies := s.replies ++ [v] }

end Sys2Proof.Machine
end

