-- ==== Sys2Proof/Machine/Operands.lean ====
section
/-! DEFINITION. What the commands read: a field of bits through the cursor (40_cursor.md R111 to R113), the frame header at
an index (42_scanner.md R181), the windows of `cur.set`, `dec.win` and `dec.cand`, and the schema entry of a message
with its read list (41_decoder.md R144, R145, R148). -/

namespace Sys2Proof.Machine

/-! ## Bit reads -/

/-- `StreamBit(ws, p)` (00_scope.md R13): bit `7 - (p mod 8)` of byte `ws + floor(p / 8)`. -/
def streamBit (m : Memory) (ws p : Nat) : Nat :=
  (m.get (ws + p / 8)).toNat / 2 ^ (7 - p % 8) % 2

/-- `Extract(ws, o, w)` (R111), the first bit taken being the most significant (20_memory.md R65). -/
def extract (m : Memory) (ws o : Nat) : Nat → Nat
  | 0 => 0
  | w + 1 => 2 * extract m ws o w + streamBit m ws (o + w)

/-- The bytes from `a` on as one number, most significant byte first: the accumulator of R112. -/
def accumulate (m : Memory) (a : Nat) : Nat → Nat
  | 0 => 0
  | n + 1 => 2 ^ 8 * accumulate m a n + (m.get (a + n)).toNat

/-- The source's own steps for a read (R112). The machine uses `extract`; that the two agree is a statement. -/
def extractByBytes (m : Memory) (ws o w : Nat) : Nat :=
  let first := o / 8
  let last := (o + w - 1) / 8
  let acc := accumulate m (ws + first) (last - first + 1)
  let shift := (8 - (o + w) % 8) % 8
  acc / 2 ^ shift % 2 ^ w

/-- How many bytes a read of `w` bits at offset `o` touches (20_memory.md R69). -/
def bytesTouched (o w : Nat) : Nat := (o % 8 + w + 7) / 8

/-- What a read of bits through the cursor gives. -/
inductive BitRead where
  /-- The bits, as an unsigned integer. -/
  | value (u : Nat)
  /-- The read is out of range (R113). -/
  | past
  /-- The last byte it would take is at `addr`, outside the buffer (R61; see `Fault.bufferRange`). -/
  | absent (addr : Nat)
deriving DecidableEq, Repr

/-- A read of `w` bits at the cursor (R113, R111). -/
def readBits (w : Nat) (s : State) : BitRead :=
  if s.curOff.toNat + w > 8 * s.winLen.toNat then .past
  else if s.bufLen.toNat ≤ s.winStart.toNat + (s.curOff.toNat + w - 1) / 8 then
    .absent (s.winStart.toNat + (s.curOff.toNat + w - 1) / 8)
  else .value (extract s.buf s.winStart.toNat s.curOff.toNat w)

/-! ## Frame headers -/

/-- `Len(i)` (R181, 30_encoding.md R96): `((Buf[i+1] << 8) | Buf[i+2]) & 0x3FF`. -/
def frameLength (m : Memory) (i : Nat) : Nat :=
  ((m.get (i + 1)).toNat <<< 8 ||| (m.get (i + 2)).toNat) &&& 0x3FF

/-- `PREAMBLE` (R180). -/
def preamble : Byte := 0xD3

/-- `RESERVED_MASK` (R180). -/
def reservedMask : Byte := 0xFC

/-- `Match(i)` (R181): all three header bytes lie in the buffer (R186), the preamble, the reserved bits zero, and a length
that is not zero (R183). -/
def frameMatch (m : Memory) (n i : Nat) : Bool :=
  decide (i + 2 < n) && decide (m.get i = preamble) && decide (m.get (i + 1) &&& reservedMask = 0)
    && decide (0 < frameLength m i)

/-- The first index that matches, of the `fuel` indices from `i` on (R190's loop). -/
def firstMatch (m : Memory) (n : Nat) : Nat → Nat → Option Nat
  | 0, _ => none
  | fuel + 1, i => if frameMatch m n i then some i else firstMatch m n fuel (i + 1)

/-- `next(i, L)` (R184). -/
def resumeIndex (r : ScanResume) (i len : Nat) : Nat :=
  match r with
  | .lenPlus1 => i + len + 1
  | .lenPlus6 => i + len + 6

/-! ## Windows -/

/-- The window `[ARG0, ARG0 + ARG1)` lies in the buffer, on unbounded integers (R117, R156, 00_scope.md R11). -/
def argWindowFits (s : State) : Bool := decide (s.arg0.toNat + s.arg1.toNat ≤ s.bufLen.toNat)

/-- The length of the candidate's window, its span clipped to the buffer's end (R155). -/
def candidateWindow (s : State) : Nat := min s.candSpan.toNat (s.bufLen.toNat - s.candStart.toNat)

/-! ## Schemas -/

/-- The source's field type: a width and a signedness. -/
structure FieldType where
  width : Nat
  signed : Bool
deriving DecidableEq, Repr

/-- The four fixed reads of every decode (R140): `header`, `zero`, `length`, `msg_number`. -/
def fixedFields : List FieldType := [⟨8, false⟩, ⟨6, false⟩, ⟨10, false⟩, ⟨12, false⟩]

/-- The names of the four fixed slots (R140, R153). -/
def fixedNames : List String := ["header", "zero", "length", "msg_number"]

/-- `REGISTRY[id]` (R144): none is `absent`. -/
def lookupSchema : Registry → Nat → Option SchemaEntry
  | [], _ => none
  | (k, e) :: r, id => if id = k then some e else lookupSchema r id

/-- One element of a read list (R145): the list, the index in it, and the descriptor. -/
structure ReadItem where
  list : DescList
  idx : Nat
  desc : Descriptor
deriving DecidableEq, Repr

/-- The descriptors of a list with their indices, from `i` on. -/
def indexFrom (l : DescList) : Nat → List Descriptor → List ReadItem
  | _, [] => []
  | i, d :: ds => { list := l, idx := i, desc := d } :: indexFrom l (i + 1) ds

/-- `c0` (R145): the first content descriptor that is read. -/
def contentStart (c : Config) : Nat := if c.contentSkipFirst then 1 else 0

/-- `ReadList(e)` (R145): header descriptors from index 1, then content descriptors from index `c0`, each once (R146). -/
def readList (c : Config) (e : SchemaEntry) : List ReadItem :=
  indexFrom .header 1 (e.header.drop 1) ++ indexFrom .content (contentStart c) (e.content.drop (contentStart c))

/-- The first element whose code is invalid (R148). -/
def firstInvalid : List ReadItem → Option ReadItem
  | [] => none
  | it :: its => if codeValid it.desc.code then firstInvalid its else some it

/-- The field type a descriptor's code names (R149). -/
def itemType (it : ReadItem) : FieldType := ⟨codeWidth it.desc.code, codeSigned it.desc.code⟩

/-- The identifiers of a registry rise strictly from `k` on and stay below 4096. -/
def registryIdsFrom : Nat → Registry → Bool
  | _, [] => true
  | k, (id, _) :: r => decide (k ≤ id) && decide (id < 4096) && registryIdsFrom (id + 1) r

/-- Every descriptor's code is the resolution of its tag (R31, R90, 70_reset_and_hazards.md R231). -/
def entryResolved (e : SchemaEntry) : Bool :=
  e.header.all (fun d => decide (d.code = resolveTag d.tag)) && e.content.all (fun d => decide (d.code = resolveTag d.tag))

/-- The legal parameters (00_scope.md R9, 10_state.md R30, R231). -/
def configWf (c : Config) : Bool :=
  decide (1 ≤ c.bufBytesMax) && decide (c.bufBytesMax ≤ 2 ^ 29 - 1) && decide (4 ≤ c.recMax) && decide (c.recMax ≤ 3840)
    && registryIdsFrom 0 c.registry && c.registry.all (fun p => entryResolved p.2)

end Sys2Proof.Machine
end

