-- ==== Sys2Proof/Machine/Cursor.lean ====
section
/-! DEFINITION. The bit-cursor commands `nop`, `cur.set`, `rd.u`, `rd.s` and `cur.clr` (40_cursor.md R116 to R120). -/

namespace Sys2Proof.Machine

/-- `nop` (R116): only `ERR <- 0`. -/
def execNop (s : State) : Host.Outcome State Fault Refusal := .next (completeCommand s)

/-- `cur.set` (R117): a cursor over `[ARG0, ARG0 + ARG1)` at offset 0, or `WINDOW_RANGE` with nothing else written. -/
def execCurSet (s : State) : Host.Outcome State Fault Refusal :=
  if argWindowFits s then .next (completeCommand (openCursor s.arg0 s.arg1 s))
  else .next (raiseError .windowRange s)

/-- The common part of R118 and R119: `NO_CURSOR` first, then `OUT_OF_RANGE`, which ends the cursor; else the value of
the field in `RESULT`, and the cursor advanced. -/
def readField (signed : Bool) (w : Nat) (s : State) : Host.Outcome State Fault Refusal :=
  if s.status.curValid then
    match readBits w s with
    | .past => .next (raiseError .outOfRange (closeCursor s))
    | .absent a => .fault (.bufferRange a)
    | .value u => .next (completeCommand (advanceCursor w (setResult signed (fieldPattern signed w u) s)))
  else .next (raiseError .noCursor s)

/-- `rd.u W` (R118): read `W` bits unsigned and advance. -/
def execRdU (w : Nat) (s : State) : Host.Outcome State Fault Refusal := readField false w s

/-- `rd.s W` (R119): read `W` bits as two's complement and advance. -/
def execRdS (w : Nat) (s : State) : Host.Outcome State Fault Refusal := readField true w s

/-- `cur.clr` (R120): discard the cursor; `WIN_START`, `WIN_LEN` and `CUR_OFF` stay. -/
def execCurClr (s : State) : Host.Outcome State Fault Refusal := .next (completeCommand (closeCursor s))

end Sys2Proof.Machine
end

