-- ==== Sys2Proof/Machine/Decoder.lean ====
section
/-! DEFINITION. The bit-field decoder: the decode procedure (41_decoder.md R140 to R154) and its two commands `dec.cand` and
`dec.win` (R155, R156). -/

namespace Sys2Proof.Machine

/-- How a run of a decode's reads ends. -/
inductive FieldsEnd where
  /-- Every read succeeded. -/
  | complete (s : State)
  /-- A read was out of range; `s` is the state before it (R142: a failed `Emit` writes nothing). -/
  | truncated (s : State)
  /-- A byte of the window does not exist (see `Fault.bufferRange`). -/
  | absent (addr : Nat)
deriving DecidableEq, Repr

/-- `Emit(w, s)` once its bits `u` are read (R142). -/
def emitValue (f : FieldType) (u : Nat) (s : State) : State :=
  pushSlot (fieldPattern f.signed f.width u) (advanceCursor f.width s)

/-- The reads of a list of fields, in order, stopping at the first that is out of range (R142, R143, R149). -/
def emitFields : List FieldType → State → FieldsEnd
  | [], s => .complete s
  | f :: fs, s =>
    match readBits f.width s with
    | .past => .truncated s
    | .absent a => .absent a
    | .value u => emitFields fs (emitValue f u s)

/-- A record slot (R32). -/
def recSlot (k : Nat) (s : State) : Word := s.recVal.getD k 0

/-- The message-type identifier: `REC_VAL[3]` after the fixed reads, a value below 4096 (R143). -/
def messageId (s : State) : BitVec 12 := (recSlot 3 s).setWidth 12

/-- Step 6 of a decode (R149): the schema reads. -/
def decodeFields (items : List ReadItem) (s : State) : Host.Outcome State Fault Refusal :=
  match emitFields (items.map itemType) s with
  | .complete s1 => .next (finishFrame .record s1)
  | .truncated s1 => .next (finishFrame .truncated s1)
  | .absent a => .fault (.bufferRange a)

/-- `FR_ERR` of an entry that needs too many slots (R147). -/
def sizeError : FrErr := { idx := 0, list := .header, reason := .size }

/-- `FR_ERR` of a descriptor whose tag has no resolution (R148). -/
def tagError (it : ReadItem) : FrErr := { idx := BitVec.ofNat 16 it.idx, list := it.list, reason := .tag }

/-- Steps 4 to 6 of a decode for the entry `e`: the size check (R147), the descriptor check (R148), the schema reads. -/
def decodeEntry (e : SchemaEntry) (s : State) : Host.Outcome State Fault Refusal :=
  if 4 + (readList s.cfg e).length > s.cfg.recMax then .next (finishFrame .configError (setFrErr sizeError s))
  else
    match firstInvalid (readList s.cfg e) with
    | some it => .next (finishFrame .configError (setFrErr (tagError it) s))
    | none => decodeFields (readList s.cfg e) s

/-- Step 3 of a decode (R144): the lookup of the identifier just read. -/
def decodeMessage (id : BitVec 12) (s : State) : Host.Outcome State Fault Refusal :=
  match lookupSchema s.cfg.registry id.toNat with
  | none => .next (finishFrame .skip s)
  | some e => decodeEntry e s

/-- `Decode(ws, wl)` (R141 to R150): a new cursor over the window, the fixed reads, then the message. -/
def decodeWindow (ws wl : Word) (s : State) : Host.Outcome State Fault Refusal :=
  match emitFields fixedFields (clearFrame (openCursor ws wl s)) with
  | .complete s1 => decodeMessage (messageId s1) (setMessage (messageId s1) s1)
  | .truncated s1 => .next (finishFrame .truncated s1)
  | .absent a => .fault (.bufferRange a)

/-- `dec.cand` (R155): decode the current candidate over its span clipped to the buffer's end; `NO_CANDIDATE` with nothing
else written when there is none. -/
def execDecCand (s : State) : Host.Outcome State Fault Refusal :=
  if s.status.candValid then
    if s.bufLen.toNat < s.candStart.toNat then .fault (.candidateRange s.candStart)
    else decodeWindow s.candStart (BitVec.ofNat 32 (candidateWindow s)) s
  else .next (raiseError .noCandidate s)

/-- `dec.win` (R156): decode the window `[ARG0, ARG0 + ARG1)`, or `WINDOW_RANGE` with nothing else written. -/
def execDecWin (s : State) : Host.Outcome State Fault Refusal :=
  if argWindowFits s then decodeWindow s.arg0 s.arg1 s
  else .next (raiseError .windowRange s)

end Sys2Proof.Machine
end

