-- ==== Sys2Proof/Machine/Scanner.lean ====
section
/-! DEFINITION. The frame-scanner commands `scan.start` and `scan.next` (42_scanner.md R189, R190). -/

namespace Sys2Proof.Machine

/-- `scan.start` (R189): a scan of the buffer from byte 0. -/
def execScanStart (s : State) : Host.Outcome State Fault Refusal := .next (completeCommand (beginScan s))

/-- The first candidate of the current scan from `SCAN_POS` on (R190). -/
def nextCandidate (s : State) : Option Nat :=
  firstMatch s.buf s.bufLen.toNat (s.bufLen.toNat - s.scanPos.toNat) s.scanPos.toNat

/-- The writes of `scan.next` when a candidate is found at `i` (R190, R184). -/
def takeCandidate (i : Nat) (s : State) : State :=
  setCandidate i (frameLength s.buf i) (resumeIndex s.cfg.scanResume i (frameLength s.buf i)) s

/-- `scan.next` (R190): the next candidate, or the scan is done at `max(SCAN_POS, BUF_LEN)`; `NO_SCAN` with nothing
else written when no scan is active. -/
def execScanNext (s : State) : Host.Outcome State Fault Refusal :=
  if s.status.scanActive then
    match nextCandidate s with
    | some i => .next (completeCommand (takeCandidate i s))
    | none => .next (completeCommand (endScan (max s.scanPos.toNat s.bufLen.toNat) s))
  else .next (raiseError .noScan s)

end Sys2Proof.Machine
end

