-- ==== Sys2Proof/Machine/Dispatch.lean ====
section
/-! DEFINITION. One arm per command (30_encoding.md R82): a direct call of its meaning. -/

namespace Sys2Proof.Machine

/-- What a command does. -/
def exec (i : Instr) (s : State) : Host.Outcome State Fault Refusal :=
  match i with
  | .nop => Sys2Proof.Machine.execNop s
  | .curSet => Sys2Proof.Machine.execCurSet s
  | .rdU w => Sys2Proof.Machine.execRdU w s
  | .rdS w => Sys2Proof.Machine.execRdS w s
  | .curClr => Sys2Proof.Machine.execCurClr s
  | .scanStart => Sys2Proof.Machine.execScanStart s
  | .scanNext => Sys2Proof.Machine.execScanNext s
  | .decCand => Sys2Proof.Machine.execDecCand s
  | .decWin => Sys2Proof.Machine.execDecWin s

end Sys2Proof.Machine
end

