-- ==== Sys2Proof/Machine/HostPort.lean ====
section
/-! DEFINITION. The register map and the host's three actions (10_state.md R24, R40 to R43, 20_memory.md R63), among them the
write to `CMD` that issues a command (30_encoding.md R80, R86, R87). -/

namespace Sys2Proof.Machine

/-- The registers of R24 by name. -/
inductive RegName where
  | cmd
  | status
  | bufLen
  | arg0
  | arg1
  | winStart
  | winLen
  | curOff
  | result
  | scanPos
  | candStart
  | candLen
  | candSpan
  | frInfo
  | frErr
  | recCount
  | cntRec
  | cntSkip
  | cntCfg
  | cntTrunc
  | id
  /-- `REC_VAL[k]`. -/
  | recVal (k : Nat)
  /-- The reserved index `idx`. -/
  | reserved (idx : Nat)
deriving DecidableEq, Repr

/-- The register at an index (R24), for `recMax` record slots. -/
def registerAt (recMax idx : Nat) : RegName :=
  match idx with
  | 0x000 => .cmd
  | 0x001 => .status
  | 0x002 => .bufLen
  | 0x003 => .arg0
  | 0x004 => .arg1
  | 0x005 => .winStart
  | 0x006 => .winLen
  | 0x007 => .curOff
  | 0x008 => .result
  | 0x009 => .scanPos
  | 0x00A => .candStart
  | 0x00B => .candLen
  | 0x00C => .candSpan
  | 0x00D => .frInfo
  | 0x00E => .frErr
  | 0x00F => .recCount
  | 0x010 => .cntRec
  | 0x011 => .cntSkip
  | 0x012 => .cntCfg
  | 0x013 => .cntTrunc
  | 0x014 => .id
  | n => if 0x100 ≤ n ∧ n < 0x100 + recMax then .recVal (n - 0x100) else .reserved n

/-- The index of a register (R24). -/
def RegName.index : RegName → Nat
  | .cmd => 0x000
  | .status => 0x001
  | .bufLen => 0x002
  | .arg0 => 0x003
  | .arg1 => 0x004
  | .winStart => 0x005
  | .winLen => 0x006
  | .curOff => 0x007
  | .result => 0x008
  | .scanPos => 0x009
  | .candStart => 0x00A
  | .candLen => 0x00B
  | .candSpan => 0x00C
  | .frInfo => 0x00D
  | .frErr => 0x00E
  | .recCount => 0x00F
  | .cntRec => 0x010
  | .cntSkip => 0x011
  | .cntCfg => 0x012
  | .cntTrunc => 0x013
  | .id => 0x014
  | .recVal k => 0x100 + k
  | .reserved n => n

/-- The constant `ID` reads as (R41). -/
def idWord : Word := 0x47530007

/-- What a host read of a register returns (R24): `CMD` reads 0 (R43) and a reserved index reads 0 (R42). -/
def readRegister (r : RegName) (s : State) : Word :=
  match r with
  | .cmd => 0
  | .status => s.status.word
  | .bufLen => s.bufLen
  | .arg0 => s.arg0
  | .arg1 => s.arg1
  | .winStart => s.winStart
  | .winLen => s.winLen
  | .curOff => s.curOff
  | .result => s.result
  | .scanPos => s.scanPos
  | .candStart => s.candStart
  | .candLen => s.candLen
  | .candSpan => s.candSpan
  | .frInfo => s.frInfo.word
  | .frErr => s.frErr.word
  | .recCount => s.recCount
  | .cntRec => s.cntRec
  | .cntSkip => s.cntSkip
  | .cntCfg => s.cntCfg
  | .cntTrunc => s.cntTrunc
  | .id => idWord
  | .recVal k => recSlot k s
  | .reserved _ => 0

/-- The value `HostRead(idx)` returns (R40). -/
def hostRead (idx : BitVec 12) (s : State) : Word := readRegister (registerAt s.cfg.recMax idx.toNat) s

/-- A word written to `CMD` (30_encoding.md R80): one of the nine commands runs; any other word raises `ILLEGAL_CMD`
and changes nothing else (R86, R87). -/
def issueCommand (v : Word) (s : State) : Host.Outcome State Fault Refusal :=
  match decode v with
  | .ok i => exec i s
  | .error _ => .next (raiseError .illegalCmd s)

/-- `HostWrite(idx, v)` (R40): `CMD` issues a command, `ARG0` and `ARG1` are stored, and a write to any other index has
no effect (R42, R43). -/
def hostWrite (idx : BitVec 12) (v : Word) (s : State) : Host.Outcome State Fault Refusal :=
  match registerAt s.cfg.recMax idx.toNat with
  | .cmd => issueCommand v s
  | .arg0 => .next (setArg0 v s)
  | .arg1 => .next (setArg1 v s)
  | _ => .next s

/-- `HostLoad(bytes)` (20_memory.md R63): refused when it is longer than `BUF_BYTES_MAX`. -/
def hostLoad (bytes : List Byte) (s : State) : Host.Outcome State Fault Refusal :=
  if bytes.length > s.cfg.bufBytesMax then .refused (.oversizedLoad bytes.length)
  else .next (loadBuffer bytes s)

/-- One host action (R40), complete before the next (20_memory.md R74). -/
def hostAct (a : HostAction) (s : State) : Host.Outcome State Fault Refusal :=
  match a with
  | .write idx v => hostWrite idx v s
  | .read idx => .next (pushReply (hostRead idx s) s)
  | .load bytes => hostLoad bytes s

end Sys2Proof.Machine
end

