-- ==== Sys2Proof/Machine/Step.lean ====
section
/-! DEFINITION. One step of the machine: the host's next action (10_state.md R40, 00_scope.md R17). -/

namespace Sys2Proof.Machine

/-- One step: the host's next action, taken off the queue and performed. With no action to come the block is idle and keeps
all its state (60_exceptions.md R215, 70_reset_and_hazards.md R232). -/
def step (s : State) : Host.Outcome State Fault Refusal :=
  match s.hostQueue with
  | [] => .next s
  | a :: q => hostAct a (setQueue q s)

/-- The index of `CMD` (10_state.md R24). -/
def cmdIndex : BitVec 12 := 0x000

/-- `s` with the write of a command word to `CMD` as the host's next action (log entry 2): a command is one 32-bit
word, and the bits above `nbits` are 0. -/
def State.withFetchWord (s : State) (nbits w : Nat) : State :=
  setQueue (.write cmdIndex (BitVec.ofNat 32 (w % 2 ^ nbits)) :: s.hostQueue) s

end Sys2Proof.Machine
end

