-- ==== Sys2Proof/Machine/Assembler.lean ====
section
/-! DEFINITION. The assembler's notation (30_encoding.md R93, R94): command lines, register names and
pseudo-instructions, as the host actions they stand for. -/

namespace Sys2Proof.Machine

/-- A command line (R93): mnemonics lower case, the operand decimal after one space. -/
def commandText : Instr → String
  | .rdU w => "rd.u " ++ toString w
  | .rdS w => "rd.s " ++ toString w
  | i => i.mnemonic

/-- The rest of `cs` after the characters `head`; none if `cs` does not begin with them. -/
def stripHead : List Char → List Char → Option (List Char)
  | [], cs => some cs
  | _ :: _, [] => none
  | h :: hs, c :: cs => if h = c then stripHead hs cs else none

/-- The command a line stands for (R93): `W` is a decimal number `1 .. 32`. -/
def parseCommand (line : String) : Option Instr :=
  if line = "nop" then some .nop
  else if line = "cur.set" then some .curSet
  else if line = "cur.clr" then some .curClr
  else if line = "scan.start" then some .scanStart
  else if line = "scan.next" then some .scanNext
  else if line = "dec.cand" then some .decCand
  else if line = "dec.win" then some .decWin
  else
    match stripHead "rd.u ".toList line.toList, stripHead "rd.s ".toList line.toList with
    | some cs, _ => (parseWidth cs).map .rdU
    | none, some cs => (parseWidth cs).map .rdS
    | none, none => none

/-- The name of a register in a host line (R93, R24). DESIGN CHOICE (log entry 12): R24 gives a reserved index no name of its own, so
R93 spells no host line for one; the model writes `reserved <n>`, with `n` the index in decimal. -/
def RegName.text : RegName → String
  | .cmd => "CMD"
  | .status => "STATUS"
  | .bufLen => "BUF_LEN"
  | .arg0 => "ARG0"
  | .arg1 => "ARG1"
  | .winStart => "WIN_START"
  | .winLen => "WIN_LEN"
  | .curOff => "CUR_OFF"
  | .result => "RESULT"
  | .scanPos => "SCAN_POS"
  | .candStart => "CAND_START"
  | .candLen => "CAND_LEN"
  | .candSpan => "CAND_SPAN"
  | .frInfo => "FR_INFO"
  | .frErr => "FR_ERR"
  | .recCount => "REC_COUNT"
  | .cntRec => "CNT_REC"
  | .cntSkip => "CNT_SKIP"
  | .cntCfg => "CNT_CFG"
  | .cntTrunc => "CNT_TRUNC"
  | .id => "ID"
  | .recVal k => "REC_VAL[" ++ toString k ++ "]"
  | .reserved n => "reserved " ++ toString n

/-- `wr NAME, value` (R93). -/
def writeLine (r : RegName) (v : Word) : HostAction := .write (BitVec.ofNat 12 r.index) v

/-- `rd NAME` (R93). -/
def readLine (r : RegName) : HostAction := .read (BitVec.ofNat 12 r.index)

/-- A host line (R93): `wr NAME, value`, `rd NAME` or `load [b0, b1, ...]`, with decimal numbers (log entry 12). -/
def hostLineText (recMax : Nat) : HostAction → String
  | .write idx v => "wr " ++ (registerAt recMax idx.toNat).text ++ ", " ++ toString v.toNat
  | .read idx => "rd " ++ (registerAt recMax idx.toNat).text
  | .load bytes => "load [" ++ String.intercalate ", " (bytes.map fun b => toString b.toNat) ++ "]"

/-- A command line is short for `wr CMD, word` (R93). -/
def commandLine (i : Instr) : HostAction := writeLine .cmd (encode i)

/-- The pseudo-instructions of R94. -/
inductive Pseudo where
  /-- `rd.bit W`. -/
  | rdBit (w : Nat)
  /-- `rd.tag T`. -/
  | rdTag (tag : String)
  /-- `cur.open A, L`. -/
  | curOpen (a l : Word)
  /-- `dec.range A, L`. -/
  | decRange (a l : Word)
deriving DecidableEq, Repr

/-- The expansion of a pseudo-instruction (R94); none is an assembly error: a width outside `1 .. 32` or an unresolvable tag. -/
def Pseudo.expand : Pseudo → Option (List HostAction)
  | .rdBit w => if legalWidth w then some [commandLine (.rdU w)] else none
  | .rdTag tag =>
    match parseTag tag.toList with
    | some (n, false) => some [commandLine (.rdU n)]
    | some (n, true) => some [commandLine (.rdS n)]
    | none => none
  | .curOpen a l => some [writeLine .arg0 a, writeLine .arg1 l, commandLine .curSet]
  | .decRange a l => some [writeLine .arg0 a, writeLine .arg1 l, commandLine .decWin]

/-- `frame.next` (R94), which looks at `STATUS` between its two commands: `scan.next`, and then `dec.cand` only if
`CAND_VALID = 1`. -/
def frameNext (s : State) : Host.Outcome State Fault Refusal :=
  match issueCommand (encode .scanNext) s with
  | .next s1 => if s1.status.candValid then issueCommand (encode .decCand) s1 else .next s1
  | .fault r => .fault r
  | .refused r => .refused r

end Sys2Proof.Machine
end

