-- ==== Sys2Proof/Machine/Pipeline.lean ====
section
/-! DEFINITION. The host software of the spec: the loop that composes scanner and decoder into the source's pipeline
(42_scanner.md R192, 70_reset_and_hazards.md R234, R241, R243). It issues commands only; it is no part of `step`. -/

namespace Sys2Proof.Machine

/-- The candidate registers after a `scan.next`: `(CAND_START, CAND_LEN, CAND_SPAN, SCAN_POS)`. -/
structure Candidate where
  start : Word
  len : Word
  span : Word
  pos : Word
deriving DecidableEq, Repr

/-- The candidate registers of a state. -/
def candidateOf (s : State) : Candidate :=
  { start := s.candStart, len := s.candLen, span := s.candSpan, pos := s.scanPos }

/-- The candidates that at most `fuel` calls of `scan.next` yield before the scan is done (R187, R191). -/
def scanAll : Nat → State → List Candidate
  | 0, _ => []
  | fuel + 1, s =>
    match issueCommand (encode .scanNext) s with
    | .next s1 => if s1.status.candValid then candidateOf s1 :: scanAll fuel s1 else []
    | .fault _ => []
    | .refused _ => []

/-- `REC_VAL[0 .. REC_COUNT-1]` as the host reads it. -/
def recordSlots (s : State) : List Word := s.recVal.take s.recCount.toNat

/-- What the host reads after a `dec.cand` of the loop (R192). -/
structure FrameResult where
  start : Word
  info : Word
  err : Word
  count : Word
  slots : List Word
deriving DecidableEq, Repr

/-- The frame result of a state: `(CAND_START, FR_INFO, FR_ERR, REC_COUNT, REC_VAL[0 .. REC_COUNT-1])` (R192). -/
def frameResult (s : State) : FrameResult :=
  { start := readRegister .candStart s
    info := readRegister .frInfo s
    err := readRegister .frErr s
    count := readRegister .recCount s
    slots := recordSlots s }

/-- The loop of R192 with at most `fuel` calls of `scan.next`: the frame results and the final state, or none if the scan is
not done by then or a command does not answer a next state. -/
def pipelineLoop : Nat → State → Option (List FrameResult × State)
  | 0, _ => none
  | fuel + 1, s =>
    match issueCommand (encode .scanNext) s with
    | .next s1 =>
      if s1.status.scanDone then some ([], s1)
      else
        match issueCommand (encode .decCand) s1 with
        | .next s2 => (pipelineLoop fuel s2).map fun p => (frameResult s2 :: p.1, p.2)
        | .fault _ => none
        | .refused _ => none
    | .fault _ => none
    | .refused _ => none

/-- `scan.start` and then the loop, with the bound of R241 on its calls of `scan.next`. -/
def runScan (s : State) : Option (List FrameResult × State) :=
  match issueCommand (encode .scanStart) s with
  | .next s1 => pipelineLoop (s1.bufLen.toNat + 1) s1
  | .fault _ => none
  | .refused _ => none

/-- The pipeline over a buffer, from the load on (R234). -/
def runPipeline (bytes : List Byte) (s : State) : Option (List FrameResult × State) :=
  match hostLoad bytes s with
  | .next s1 => runScan s1
  | .fault _ => none
  | .refused _ => none

/-- The pipeline's record output: the results whose outcome is RECORD (R192). -/
def recordOutput (rs : List FrameResult) : List FrameResult := rs.filter fun r => bitField r.info 2 0 == 1

/-- What the host reads at the indices of R24 that are not reserved, `CMD` at 0x000 to `ID` at 0x014, in that order. -/
def readAllRegisters (s : State) : List Word := (List.range 0x015).map fun n => hostRead (BitVec.ofNat 12 n) s

/-- The result of a run (R243): every register of R24, `CMD` (which reads 0, R43) among them, and `REC_VAL[0 .. REC_COUNT-1]`, as
the host reads them. -/
def runResult (s : State) : List Word := readAllRegisters s ++ recordSlots s

end Sys2Proof.Machine
end

