-- ==== Sys2Proof/Machine/Record.lean ====
section
/-! DEFINITION. The decoded record a consumer reads out of the record slots after a RECORD outcome (10_state.md R32,
41_decoder.md R153). -/

namespace Sys2Proof.Machine

/-- How many bits a list of fields takes (30_encoding.md R97: no padding). -/
def totalWidth : List FieldType → Nat
  | [] => 0
  | f :: fs => f.width + totalWidth fs

/-- The offset of the `k`-th field of a list: the fields are packed one after the other (R97). -/
def fieldOffset (fs : List FieldType) (k : Nat) : Nat := totalWidth (fs.take k)

/-- The pattern the slot of the `k`-th field holds (R32, R142): its bits in the window that starts at byte `ws`. -/
def fieldSlot (m : Memory) (ws : Nat) (fs : List FieldType) (k : Nat) : Word :=
  let f := fs.getD k ⟨0, false⟩
  fieldPattern f.signed f.width (extract m ws (fieldOffset fs k) f.width)

/-- The integer value of a slot (R32): the slot itself if unsigned, `toSigned32` of it if signed. -/
def slotValue (signed : Bool) (v : Word) : Int := if signed then toSigned32 v else v.toNat

/-- The names of a record's slots, in slot order (R153). -/
def slotNames (c : Config) (e : SchemaEntry) : List String := fixedNames ++ (readList c e).map fun it => it.desc.name

/-- The types of a record's slots, in slot order (R140, R149). -/
def slotTypes (c : Config) (e : SchemaEntry) : List FieldType := fixedFields ++ (readList c e).map itemType

/-- The values of the slots from `k` on that have the types listed. -/
def slotValuesFrom (k : Nat) : List FieldType → State → List Int
  | [], _ => []
  | f :: fs, s => slotValue f.signed (recSlot k s) :: slotValuesFrom (k + 1) fs s

/-- The decoded record (R153): the `(name, value)` pairs in slot order after a RECORD outcome; no record after any other. -/
def decodedRecord (s : State) : Option (List (String × Int)) :=
  match s.frInfo.outcome, s.frInfo.msg with
  | some .record, some id =>
    match lookupSchema s.cfg.registry id.toNat with
    | some e => some ((slotNames s.cfg e).zip (slotValuesFrom 0 (slotTypes s.cfg e) s))
    | none => none
  | _, _ => none

/-- The record as the source's mapping (R153): a name that occurs twice maps to its last value. -/
def recordField (name : String) : List (String × Int) → Option Int
  | [] => none
  | (n, v) :: r =>
    match recordField name r with
    | some v' => some v'
    | none => if n = name then some v else none

end Sys2Proof.Machine
end

