-- ==== Sys2Proof/Safety.lean ====
section
/-! DEFINITION. What holds of every state a run reaches (10_state.md R45, R23, R26, R33), and what counts as a run without
a command error (70_reset_and_hazards.md R243). -/

namespace Sys2Proof.Machine

/-- The invariants of R45 with the bounds they rest on. The register bounds of R23 are stated for all times, but for
`SCAN_POS`'s, which holds while a scan is active (log entry 9). -/
structure State.Inv (s : State) : Prop where
  /-- The parameters are legal (R9, R30, R231). -/
  config : configWf s.cfg = true
  /-- The buffer is in canonical form. -/
  bufCanonical : Memory.wf s.buf = true
  /-- Every listed byte lies in the buffer (R61). -/
  bufBelow : Memory.below s.bufLen.toNat s.buf = true
  /-- `BUF_LEN ≤ BUF_BYTES_MAX` (R38). -/
  bufSize : s.bufLen.toNat ≤ s.cfg.bufBytesMax
  /-- `CUR_VALID = 1` implies `WIN_START + WIN_LEN ≤ BUF_LEN` (R26, R45). -/
  window : s.status.curValid = true → s.winStart.toNat + s.winLen.toNat ≤ s.bufLen.toNat
  /-- The window's registers never pass the largest buffer, with a cursor or without. -/
  windowSize : s.winStart.toNat + s.winLen.toNat ≤ s.cfg.bufBytesMax
  /-- `CUR_OFF ≤ 8 * WIN_LEN` (R23, R25, R45). -/
  cursor : s.curOff.toNat ≤ 8 * s.winLen.toNat
  /-- `CAND_VALID = 1` implies `SCAN_ACTIVE = 1`, and that the candidate registers describe a match (R45, R35). -/
  candidate : s.status.candValid = true →
    s.status.scanActive = true ∧ frameMatch s.buf s.bufLen.toNat s.candStart.toNat = true ∧
      s.candLen.toNat = frameLength s.buf s.candStart.toNat ∧ s.candSpan.toNat = s.candLen.toNat + 6
  /-- Bits 31:10 of `CAND_LEN` read 0, with a candidate or without (R35). -/
  candLenBits : s.candLen.toNat ≤ 1023
  /-- `SCAN_DONE = 1` implies `SCAN_ACTIVE = 1`, `CAND_VALID = 0` and `SCAN_POS ≥ BUF_LEN` (R45). -/
  scanDone : s.status.scanDone = true →
    s.status.scanActive = true ∧ s.status.candValid = false ∧ s.bufLen.toNat ≤ s.scanPos.toNat
  /-- While a scan is active, `SCAN_POS ≤ BUF_LEN + 1026` (R23, log entry 9). -/
  scanBound : s.status.scanActive = true → s.scanPos.toNat ≤ s.bufLen.toNat + 1026
  /-- `REC_COUNT ≤ REC_MAX` (R33, R45). -/
  recCount : s.recCount.toNat ≤ s.cfg.recMax
  /-- There are `REC_MAX` record slots (R32). -/
  recSlots : s.recVal.length = s.cfg.recMax

/-- What `FR_INFO`, `FR_ERR`, `REC_COUNT` and slot 3 say together after the last decode (R28, R29, R33, 41_decoder.md R143 to
R150). -/
def State.FrameInv (s : State) : Prop :=
  match s.frInfo.outcome, s.frInfo.msg with
  | none, msg => msg = none ∧ s.frErr = FrErr.zero ∧ s.recCount = 0
  | some .record, some id =>
    ∃ e, lookupSchema s.cfg.registry id.toNat = some e ∧ recSlot 3 s = id.setWidth 32 ∧
      s.recCount.toNat = 4 + (readList s.cfg e).length ∧ s.frErr = FrErr.zero
  | some .skip, some id =>
    lookupSchema s.cfg.registry id.toNat = none ∧ recSlot 3 s = id.setWidth 32 ∧ s.recCount = 4 ∧ s.frErr = FrErr.zero
  | some .configError, some id =>
    ∃ e, lookupSchema s.cfg.registry id.toNat = some e ∧ recSlot 3 s = id.setWidth 32 ∧ s.recCount = 4 ∧
      ((s.cfg.recMax < 4 + (readList s.cfg e).length ∧ s.frErr = sizeError) ∨
        (4 + (readList s.cfg e).length ≤ s.cfg.recMax ∧
          ∃ it, firstInvalid (readList s.cfg e) = some it ∧ s.frErr = tagError it))
  | some .truncated, some id =>
    ∃ e, lookupSchema s.cfg.registry id.toNat = some e ∧ recSlot 3 s = id.setWidth 32 ∧
      4 ≤ s.recCount.toNat ∧ s.recCount.toNat < 4 + (readList s.cfg e).length ∧ s.frErr = FrErr.zero
  | some .truncated, none => s.recCount.toNat < 4 ∧ s.frErr = FrErr.zero
  | some .record, none => False
  | some .skip, none => False
  | some .configError, none => False

/-- `i` is a decode command that `s` accepts, over the window of `wl` bytes at byte `ws` (41_decoder.md R155, R156). -/
def DecodesWindow (i : Instr) (s : State) (ws wl : Word) : Prop :=
  (i = .decWin ∧ s.arg0.toNat + s.arg1.toNat ≤ s.bufLen.toNat ∧ ws = s.arg0 ∧ wl = s.arg1) ∨
  (i = .decCand ∧ s.status.candValid = true ∧ ws = s.candStart ∧
    wl.toNat = min s.candSpan.toNat (s.bufLen.toNat - s.candStart.toNat))

/-- The identifier a frame at byte `ws` carries: its bits 24 to 35 (R140). -/
def messageBits (s : State) (ws : Word) : BitVec 12 := BitVec.ofNat 12 (extract s.buf ws.toNat 24 12)

/-- The types of the slots a decode with `FR_INFO.MSG` `msg` may write, in slot order: the fixed reads, and then those of the
identifier's entry, if there is one (R140, R145). -/
def decodeTypes (c : Config) (msg : Option (BitVec 12)) : List FieldType :=
  match msg with
  | none => fixedFields
  | some id =>
    match lookupSchema c.registry id.toNat with
    | none => fixedFields
    | some e => slotTypes c e

/-- A run that has seen no command error (R243). -/
def State.Clean (s : State) : Prop := s.status.errSticky = false

/-- A run (R243): a reset of an instance with parameters `c`, then the host's actions in order. -/
def runHost (c : Config) (actions : List HostAction) : Host.Outcome State Fault Refusal :=
  Host.Core.run Sys2Proof.core actions.length (setQueue actions (State.resetWith c))

end Sys2Proof.Machine
end

