-- ==== Sys2Proof/Certificates/Slice0/Obligations.lean ====
section
/-! DEFINITION. The statements for the provers, one for each numbered rule of the spec that says what a command or the
machine does. -/

open Sys2Proof Sys2Proof.Machine

/-! ## Encodings (30_encoding.md) -/

/-- The words of R93 and L2.1 decode as the spec says, or are rejected as it says. -/
def Obligations.DecodeReadsTheSpecsWords : Prop :=
  decode 0x00000000 = .ok .nop ∧ decode 0x01000000 = .ok .curSet ∧ decode 0x02000000 = .ok (.rdU 1) ∧
    decode 0x0200001F = .ok (.rdU 32) ∧ decode 0x02000020 = .ok (.rdS 1) ∧ decode 0x0200003F = .ok (.rdS 32) ∧
    decode 0x03000000 = .ok .curClr ∧ decode 0x10000000 = .ok .scanStart ∧ decode 0x11000000 = .ok .scanNext ∧
    decode 0x20000000 = .ok .decCand ∧ decode 0x20000001 = .ok .decWin ∧
    decode 0x00000001 = .error .mustBeZero ∧ decode 0x02000040 = .error .mustBeZero ∧
    decode 0x20000002 = .error .mustBeZero ∧ decode 0x04000000 = .error .reservedOpcode ∧
    decode 0xFFFFFFFF = .error .reservedOpcode

/-- Decoding the word of a well-formed command gives the command back (R82, R83, R93). -/
def Obligations.DecodeOfEncodeGivesTheCommand : Prop :=
  ∀ i : Instr, i.wf = true → decode (encode i) = .ok i

/-- A word that decodes is the word of the command it decodes to, which is well formed: no bit of a word is ignored (R83,
R87). -/
def Obligations.DecodedWordIsTheCommandsOwnWord : Prop :=
  ∀ (v : Word) (i : Instr), decode v = .ok i → i.wf = true ∧ encode i = v

/-- A word decodes exactly if it meets the match and mask of a row of R82, and then to that row's command; every other word is
rejected, for its `OPC` or for a must-be-zero bit (R82, R88). -/
def Obligations.WordsDecodeByMatchAndMask : Prop :=
  ∀ v : Word,
    (decode v = .ok .nop ↔ v &&& 0xFFFFFFFF = 0x00000000) ∧
    (decode v = .ok .curSet ↔ v &&& 0xFFFFFFFF = 0x01000000) ∧
    ((∃ w, decode v = .ok (.rdU w)) ↔ v &&& 0xFFFFFFE0 = 0x02000000) ∧
    ((∃ w, decode v = .ok (.rdS w)) ↔ v &&& 0xFFFFFFE0 = 0x02000020) ∧
    (decode v = .ok .curClr ↔ v &&& 0xFFFFFFFF = 0x03000000) ∧
    (decode v = .ok .scanStart ↔ v &&& 0xFFFFFFFF = 0x10000000) ∧
    (decode v = .ok .scanNext ↔ v &&& 0xFFFFFFFF = 0x11000000) ∧
    (decode v = .ok .decCand ↔ v &&& 0xFFFFFFFF = 0x20000000) ∧
    (decode v = .ok .decWin ↔ v &&& 0xFFFFFFFF = 0x20000001) ∧
    (decode v = .error .reservedOpcode ↔ bitField v 31 24 ∉ [0x00, 0x01, 0x02, 0x03, 0x10, 0x11, 0x20]) ∧
    (decode v = .error .mustBeZero ↔
      (bitField v 31 24 ∈ [0x00, 0x01, 0x03, 0x10, 0x11] ∧ bitField v 23 0 ≠ 0) ∨
        (bitField v 31 24 = 0x02 ∧ bitField v 23 6 ≠ 0) ∨ (bitField v 31 24 = 0x20 ∧ bitField v 23 1 ≠ 0))

/-- A word with a reserved `OPC` written to `CMD` raises `ILLEGAL_CMD` and changes nothing else (R86, with 60_exceptions.md
R205). -/
def Obligations.ReservedOpcodeRaisesIllegalCmd : Prop :=
  ∀ (s : State) (v : Word), bitField v 31 24 ∉ [0x00, 0x01, 0x02, 0x03, 0x10, 0x11, 0x20] →
    hostWrite 0x000 v s = .next { s with status := { s.status with err := some .illegalCmd, errSticky := true } }

/-- A word with a legal `OPC` and a 1 in a must-be-zero bit written to `CMD` raises `ILLEGAL_CMD` and changes nothing else (R87,
R81). -/
def Obligations.MustBeZeroBitRaisesIllegalCmd : Prop :=
  ∀ (s : State) (v : Word),
    ((bitField v 31 24 ∈ [0x00, 0x01, 0x03, 0x10, 0x11] ∧ bitField v 23 0 ≠ 0) ∨
      (bitField v 31 24 = 0x02 ∧ bitField v 23 6 ≠ 0) ∨ (bitField v 31 24 = 0x20 ∧ bitField v 23 1 ≠ 0)) →
    hostWrite 0x000 v s = .next { s with status := { s.status with err := some .illegalCmd, errSticky := true } }

/-- Exactly the codes `0x80 .. 0xBF` are valid, and a valid code names the width `WM1 + 1` and the sign `S` (R89). -/
def Obligations.ValidCodesNameTheirField : Prop :=
  ∀ c : BitVec 8,
    (codeValid c = true ↔ 0x80 ≤ c.toNat ∧ c.toNat ≤ 0xBF) ∧
      (codeWidth c = c.toNat % 2 ^ 5 + 1 ∧ (codeSigned c = true ↔ c.toNat / 2 ^ 5 % 2 = 1))

/-- A tag resolves exactly if it is `uint`, `bit` or `int` and a decimal number from 1 to 32 without a leading zero, and then
to the code R90 gives; any other tag has the code 0x00 (R90, R91, R92). -/
def Obligations.TagsResolveByTheGrammar : Prop :=
  (∀ n, 1 ≤ n → n ≤ 32 →
    resolveTag ("uint" ++ toString n) = 0x80#8 ||| BitVec.ofNat 8 (n - 1) ∧
    resolveTag ("bit" ++ toString n) = 0x80#8 ||| BitVec.ofNat 8 (n - 1) ∧
    resolveTag ("int" ++ toString n) = 0xA0#8 ||| BitVec.ofNat 8 (n - 1)) ∧
  ∀ tag : String, resolveTag tag ≠ 0x00#8 →
    ∃ n, 1 ≤ n ∧ n ≤ 32 ∧ (tag = "uint" ++ toString n ∨ tag = "bit" ++ toString n ∨ tag = "int" ++ toString n)

/-- The assembler reads back the line it writes for a well-formed command (R93); the exact line grammar is the model's choice
(log entry 12). -/
def Obligations.AssemblerReadsItsOwnLines : Prop :=
  ∀ i : Instr, i.wf = true → parseCommand (commandText i) = some i

/-! ## The step, the host and the register map (10_state.md, 20_memory.md) -/

/-- A step whose action writes a command's word to `CMD` runs the command on the state with that action taken
(30_encoding.md R80). The queue of host actions is the model's own (log entry 2). -/
def Obligations.StepRunsTheDecodedCommand : Prop :=
  ∀ (s : State) (v : Word) (q : List HostAction) (i : Instr),
    s.hostQueue = .write cmdIndex v :: q → decode v = .ok i → step s = exec i { s with hostQueue := q }

/-- A step performs the host's next action, one of the three of R40, on the state with that action taken. The queue of host
actions and the log of read values are the model's own (log entries 2 and 3). -/
def Obligations.StepPerformsTheHostsNextAction : Prop :=
  ∀ (s : State) (q : List HostAction),
    (∀ idx v, s.hostQueue = .write idx v :: q → step s = hostWrite idx v { s with hostQueue := q }) ∧
    (∀ idx, s.hostQueue = .read idx :: q →
      step s = .next { s with hostQueue := q, replies := s.replies ++ [hostRead idx s] }) ∧
    (∀ bytes, s.hostQueue = .load bytes :: q → step s = hostLoad bytes { s with hostQueue := q })

/-- A host write to `ARG0` or `ARG1` stores the whole value (R40, R37); a write to a read-only register or a reserved index
changes nothing and raises no error; a read of `CMD` or of a reserved index returns 0 (R42, R43). -/
def Obligations.HostWriteStoresOnlyTheOperands : Prop :=
  ∀ (s : State) (idx : BitVec 12) (v : Word),
    hostWrite 0x003 v s = .next { s with arg0 := v } ∧
    hostWrite 0x004 v s = .next { s with arg1 := v } ∧
    ((idx.toNat = 0x001 ∨ idx.toNat = 0x002 ∨ 0x005 ≤ idx.toNat) → hostWrite idx v s = .next s) ∧
    hostRead 0x000 s = 0 ∧
    ((0x015 ≤ idx.toNat ∧ idx.toNat ≤ 0x0FF ∨ 0x100 + s.cfg.recMax ≤ idx.toNat) → hostRead idx s = 0)

/-- A host read returns the register at the index as R24 maps it; `ID` always reads 0x47530007 (R24, R41). -/
def Obligations.HostReadReturnsTheMappedRegister : Prop :=
  ∀ s : State,
    hostRead 0x001 s = s.status.word ∧ hostRead 0x002 s = s.bufLen ∧ hostRead 0x003 s = s.arg0 ∧
    hostRead 0x004 s = s.arg1 ∧ hostRead 0x005 s = s.winStart ∧ hostRead 0x006 s = s.winLen ∧
    hostRead 0x007 s = s.curOff ∧ hostRead 0x008 s = s.result ∧ hostRead 0x009 s = s.scanPos ∧
    hostRead 0x00A s = s.candStart ∧ hostRead 0x00B s = s.candLen ∧ hostRead 0x00C s = s.candSpan ∧
    hostRead 0x00D s = s.frInfo.word ∧ hostRead 0x00E s = s.frErr.word ∧ hostRead 0x00F s = s.recCount ∧
    hostRead 0x010 s = s.cntRec ∧ hostRead 0x011 s = s.cntSkip ∧ hostRead 0x012 s = s.cntCfg ∧
    hostRead 0x013 s = s.cntTrunc ∧ hostRead 0x014 s = 0x47530007 ∧
    ∀ (idx : BitVec 12) (k : Nat), k < s.cfg.recMax → idx.toNat = 0x100 + k → hostRead idx s = s.recVal.getD k 0

/-- Each field of `STATUS`, `FR_INFO` and `FR_ERR` stands at the bits R27, R28 and R29 give it, with the codes of
60_exceptions.md R201 and R202, and the reserved bits read 0. -/
def Obligations.StatusAndFrameWordsHoldTheirFields : Prop :=
  (∀ t : Status,
    bitField t.word 3 0 = errCode t.err ∧ bitField t.word 4 4 = t.errSticky.toNat ∧
    bitField t.word 5 5 = t.curValid.toNat ∧ bitField t.word 6 6 = t.scanActive.toNat ∧
    bitField t.word 7 7 = t.scanDone.toNat ∧ bitField t.word 8 8 = t.candValid.toNat ∧
    bitField t.word 9 9 = t.resSigned.toNat ∧ bitField t.word 31 10 = 0) ∧
  (errCode none = 0 ∧ errCode (some .illegalCmd) = 1 ∧ errCode (some .noCursor) = 2 ∧ errCode (some .outOfRange) = 3 ∧
    errCode (some .windowRange) = 4 ∧ errCode (some .noScan) = 5 ∧ errCode (some .noCandidate) = 6) ∧
  (∀ f : FrInfo,
    bitField f.word 2 0 = outcomeCode f.outcome ∧ bitField f.word 3 3 = f.msg.isSome.toNat ∧
    bitField f.word 15 4 = (f.msg.map BitVec.toNat).getD 0 ∧ bitField f.word 31 16 = 0) ∧
  (outcomeCode none = 0 ∧ outcomeCode (some .record) = 1 ∧ outcomeCode (some .skip) = 2 ∧
    outcomeCode (some .configError) = 3 ∧ outcomeCode (some .truncated) = 4) ∧
  (∀ f : FrErr,
    bitField f.word 15 0 = f.idx.toNat ∧ bitField f.word 16 16 = (match f.list with | .header => 0 | .content => 1) ∧
    bitField f.word 17 17 = (match f.reason with | .tag => 0 | .size => 1) ∧ bitField f.word 31 18 = 0)

/-- A load of at most `BUF_BYTES_MAX` bytes replaces the buffer, sets `BUF_LEN`, ends the cursor, the scan and the candidate, and
keeps every other register and slot; a longer load is refused (20_memory.md R63). The model's own choices in this statement: that
the refused load is the refusal `oversizedLoad` of the step (log entry 4, DEDUCED), and that the buffer's bytes are held in the
canonical form `Memory.wf` (log entry 7, DESIGN CHOICE). -/
def Obligations.LoadReplacesTheBuffer : Prop :=
  ∀ (s : State) (bytes : List Byte),
    (bytes.length ≤ s.cfg.bufBytesMax →
      ∃ m : Memory, Memory.wf m = true ∧ (∀ a, a < bytes.length → m.get a = bytes.getD a 0) ∧
        hostLoad bytes s = .next { s with
          buf := m
          bufLen := BitVec.ofNat 32 bytes.length
          status :=
            { s.status with curValid := false, scanActive := false, scanDone := false, candValid := false } }) ∧
    (s.cfg.bufBytesMax < bytes.length → hostLoad bytes s = .refused (.oversizedLoad bytes.length))

/-- With no host action to come the block is idle and keeps all its state (60_exceptions.md R215); that a step then answers
the same state is the model's choice (log entry 2). -/
def Obligations.IdleBlockKeepsItsState : Prop :=
  ∀ s : State, s.hostQueue = [] → step s = .next s

/-- No command writes the buffer, `BUF_LEN`, the operands, the parameters or the host's side (20_memory.md R62, R78, 10_state.md
R37). -/
def Obligations.CommandsLeaveBufferAndOperands : Prop :=
  ∀ (i : Instr) (s t : State), exec i s = .next t →
    (∀ a, t.buf.get a = s.buf.get a) ∧ t.buf = s.buf ∧ t.bufLen = s.bufLen ∧ t.arg0 = s.arg0 ∧ t.arg1 = s.arg1 ∧
      t.cfg = s.cfg ∧ t.hostQueue = s.hostQueue ∧ t.replies = s.replies

/-- Of the host's actions, the commands among them, only a load replaces the buffer, and none writes the registry or any other
parameter (20_memory.md R62, R78). -/
def Obligations.OnlyALoadChangesTheBuffer : Prop :=
  ∀ (a : HostAction) (s t : State), hostAct a s = .next t →
    t.cfg = s.cfg ∧
      ((∀ bytes, a ≠ .load bytes) → t.bufLen = s.bufLen ∧ t.buf = s.buf ∧ ∀ n, t.buf.get n = s.buf.get n)

/-- `ERR_STICKY`, once set, stays set: no host action clears it, the commands among them (60_exceptions.md R206,
70_reset_and_hazards.md R230). -/
def Obligations.StickyErrorIsNeverCleared : Prop :=
  ∀ (a : HostAction) (s t : State), hostAct a s = .next t → s.status.errSticky = true → t.status.errSticky = true

/-- A command that ends with no error keeps `ERR_STICKY`. One that ends in an error writes only `ERR`, `ERR_STICKY <- 1`, and
`CUR_VALID <- 0` on `OUT_OF_RANGE` (60_exceptions.md R204, R205). -/
def Obligations.FailingCommandWritesOnlyItsError : Prop :=
  ∀ (i : Instr) (s t : State), exec i s = .next t →
    (t.status.err = none → t.status.errSticky = s.status.errSticky) ∧
    ∀ e : CmdError, t.status.err = some e →
      t = { s with status := { s.status with err := some e, errSticky := true, curValid := t.status.curValid } } ∧
        ((e ≠ .outOfRange ∧ t.status.curValid = s.status.curValid) ∨ (e = .outOfRange ∧ t.status.curValid = false))

/-- How each command can end (60_exceptions.md R200, R203): success, or one of its own errors; a decode that succeeds has a
frame outcome, and no other command and no failed decode writes `FR_INFO`; any other word raises `ILLEGAL_CMD`. -/
def Obligations.CommandsEndAsTheTableSays : Prop :=
  (∀ (i : Instr) (s t : State), exec i s = .next t →
    (∀ e, t.status.err = some e →
      match i with
      | .nop => False
      | .curClr => False
      | .scanStart => False
      | .curSet => e = .windowRange
      | .rdU _ => e = .noCursor ∨ e = .outOfRange
      | .rdS _ => e = .noCursor ∨ e = .outOfRange
      | .scanNext => e = .noScan
      | .decCand => e = .noCandidate
      | .decWin => e = .windowRange) ∧
    (i = .decCand ∨ i = .decWin → t.status.err = none → t.frInfo.outcome ≠ none) ∧
    ((i ≠ .decCand ∧ i ≠ .decWin) ∨ t.status.err ≠ none → t.frInfo = s.frInfo)) ∧
  ∀ (v : Word) (r : DecodeError) (s : State), decode v = .error r →
    ∃ t, hostWrite 0x000 v s = .next t ∧ t.status.err = some .illegalCmd ∧ t.frInfo = s.frInfo

/-- The four counters count the outcomes of decodes, modulo 2^32: a decode with an outcome increments that outcome's counter and
no other, and no other command writes one (10_state.md R36). -/
def Obligations.CountersCountTheOutcomes : Prop :=
  ∀ (i : Instr) (s t : State), exec i s = .next t →
    ((i = .decCand ∨ i = .decWin) → t.status.err = none →
      ∃ o, t.frInfo.outcome = some o ∧ t.cntRec = s.cntRec + (if o = .record then 1 else 0) ∧
        t.cntSkip = s.cntSkip + (if o = .skip then 1 else 0) ∧
        t.cntCfg = s.cntCfg + (if o = .configError then 1 else 0) ∧
        t.cntTrunc = s.cntTrunc + (if o = .truncated then 1 else 0)) ∧
    ((i ≠ .decCand ∧ i ≠ .decWin) ∨ t.status.err ≠ none →
      t.cntRec = s.cntRec ∧ t.cntSkip = s.cntSkip ∧ t.cntCfg = s.cntCfg ∧ t.cntTrunc = s.cntTrunc)

/-! ## Reset (10_state.md R44, 70_reset_and_hazards.md) -/

/-- The value of every piece of state after reset (R44, R230), for every choice of the parameters. -/
def Obligations.ResetValues : Prop :=
  ∀ c : Config,
    (∀ a, (State.resetWith c).buf.get a = 0) ∧ (State.resetWith c).buf = [] ∧ (State.resetWith c).bufLen = 0 ∧
    (State.resetWith c).status.word = 0 ∧ (State.resetWith c).arg0 = 0 ∧ (State.resetWith c).arg1 = 0 ∧
    (State.resetWith c).winStart = 0 ∧ (State.resetWith c).winLen = 0 ∧ (State.resetWith c).curOff = 0 ∧
    (State.resetWith c).result = 0 ∧ (State.resetWith c).scanPos = 0 ∧ (State.resetWith c).candStart = 0 ∧
    (State.resetWith c).candLen = 0 ∧ (State.resetWith c).candSpan = 0 ∧ (State.resetWith c).frInfo.word = 0 ∧
    (State.resetWith c).frErr.word = 0 ∧ (State.resetWith c).recCount = 0 ∧ (State.resetWith c).cntRec = 0 ∧
    (State.resetWith c).cntSkip = 0 ∧ (State.resetWith c).cntCfg = 0 ∧ (State.resetWith c).cntTrunc = 0 ∧
    (State.resetWith c).recVal.length = c.recMax ∧ (∀ k, recSlot k (State.resetWith c) = 0) ∧
    hostRead 0x014 (State.resetWith c) = 0x47530007 ∧ (State.resetWith c).cfg = c

/-- The state after reset meets the invariants, for every choice of legal parameters. -/
def Obligations.ResetMeetsTheInvariants : Prop :=
  ∀ c : Config, configWf c = true → (State.resetWith c).Inv ∧ (State.resetWith c).FrameInv

/-- What the commands do in the reset state (70_reset_and_hazards.md R233): three succeed; the reads, `scan.next` and
`dec.cand` raise their errors; the two window commands succeed, since `ARG0 + ARG1 = 0`, and raise `WINDOW_RANGE` for any other
operands. -/
def Obligations.CommandsInTheResetState : Prop :=
  ∀ c : Config,
    (exec .nop (State.resetWith c) = .next (State.resetWith c)) ∧
    (exec .curClr (State.resetWith c) = .next (State.resetWith c)) ∧
    (∃ t, exec .scanStart (State.resetWith c) = .next t ∧ t.status.err = none ∧ t.status.scanActive = true) ∧
    (∀ w, 1 ≤ w → w ≤ 32 → exec (.rdU w) (State.resetWith c) = .next (raiseError .noCursor (State.resetWith c)) ∧
      exec (.rdS w) (State.resetWith c) = .next (raiseError .noCursor (State.resetWith c))) ∧
    exec .scanNext (State.resetWith c) = .next (raiseError .noScan (State.resetWith c)) ∧
    exec .decCand (State.resetWith c) = .next (raiseError .noCandidate (State.resetWith c)) ∧
    (∃ t, exec .curSet (State.resetWith c) = .next t ∧ t.status.err = none ∧ t.status.curValid = true ∧
      ∀ w, 1 ≤ w → w ≤ 32 →
        (∃ u, exec (.rdU w) t = .next u ∧ u.status.err = some .outOfRange) ∧
        (∃ u, exec (.rdS w) t = .next u ∧ u.status.err = some .outOfRange)) ∧
    (∃ t, exec .decWin (State.resetWith c) = .next t ∧ t.status.err = none ∧
      t.frInfo.outcome = some .truncated ∧ t.recCount = 0) ∧
    ∀ a l : Word, a.toNat + l.toNat ≠ 0 →
      (∃ t, exec .curSet (setArg0 a (setArg1 l (State.resetWith c))) = .next t ∧ t.status.err = some .windowRange) ∧
      (∃ t, exec .decWin (setArg0 a (setArg1 l (State.resetWith c))) = .next t ∧ t.status.err = some .windowRange)

/-! ## Invariants -/

/-- Every step keeps the invariants of R45 and R23, from every state that meets them. `State.Inv` also holds the canonical form of
the buffer and the bounds the rules rest on; its bound on `SCAN_POS` is log entry 9's reading of R23. -/
def Obligations.StepKeepsTheInvariant : Prop :=
  ∀ s t : State, s.Inv → step s = .next t → t.Inv

/-- Every step keeps what `FR_INFO`, `FR_ERR`, `REC_COUNT` and the identifier's slot say together (R28, R29, R33). -/
def Obligations.StepKeepsTheFrameInvariant : Prop :=
  ∀ s t : State, s.Inv → s.FrameInv → step s = .next t → t.FrameInv

/-- From a state that meets the invariant no step faults, and a step is refused only for a load that is too long: no command
reads outside the buffer (20_memory.md R61, R63). -/
def Obligations.InvariantStatesNeverFault : Prop :=
  ∀ s : State, s.Inv →
    (∃ t, step s = .next t) ∨
      ∃ bytes q, s.hostQueue = .load bytes :: q ∧ s.cfg.bufBytesMax < bytes.length ∧
        step s = .refused (.oversizedLoad bytes.length)

/-! ## The cursor commands (40_cursor.md) -/

/-- `nop`, the word 0x00000000, writes only `ERR <- 0` (R116). -/
def Obligations.NopClearsOnlyErr : Prop :=
  decode 0x00000000 = .ok .nop ∧ ∀ s : State, exec .nop s = .next { s with status := { s.status with err := none } }

/-- `cur.set`, the word 0x01000000, opens a cursor at offset 0 over `[ARG0, ARG0 + ARG1)` if that window lies in the buffer, on
unbounded integers; otherwise it raises `WINDOW_RANGE` and writes nothing else (R117). -/
def Obligations.CurSetOpensTheArgumentWindow : Prop :=
  decode 0x01000000 = .ok .curSet ∧
  ∀ s : State,
    (s.arg0.toNat + s.arg1.toNat ≤ s.bufLen.toNat →
      exec .curSet s = .next { s with
        winStart := s.arg0, winLen := s.arg1, curOff := 0,
        status := { s.status with curValid := true, err := none } }) ∧
    (s.bufLen.toNat < s.arg0.toNat + s.arg1.toNat →
      exec .curSet s = .next { s with status := { s.status with err := some .windowRange, errSticky := true } })

/-- `cur.clr`, the word 0x03000000, discards the cursor and keeps its registers (R120). -/
def Obligations.CurClrDiscardsTheCursor : Prop :=
  decode 0x03000000 = .ok .curClr ∧
  ∀ s : State, exec .curClr s = .next { s with status := { s.status with curValid := false, err := none } }

/-- `rd.u W`, the word `0x02000000 | (W - 1)`: with no cursor it raises `NO_CURSOR`, whatever its range; past the window it raises
`OUT_OF_RANGE` and ends the cursor; otherwise `RESULT` is the sum of R111 over the `W` bits at the cursor, the cursor advances by
`W`, and nothing else but `RES_SIGNED` and `ERR` is written (R118, R111; that the window lies in the buffer is R26's). -/
def Obligations.RdUReadsTheFieldUnsigned : Prop :=
  ∀ (s : State) (w : Nat), 1 ≤ w → w ≤ 32 →
    decode (0x02000000 ||| BitVec.ofNat 32 (w - 1)) = .ok (.rdU w) ∧
    (s.status.curValid = false →
      exec (.rdU w) s = .next { s with status := { s.status with err := some .noCursor, errSticky := true } }) ∧
    (s.status.curValid = true → 8 * s.winLen.toNat < s.curOff.toNat + w →
      exec (.rdU w) s = .next { s with
        status := { s.status with curValid := false, err := some .outOfRange, errSticky := true } }) ∧
    (s.status.curValid = true → s.winStart.toNat + s.winLen.toNat ≤ s.bufLen.toNat →
      s.curOff.toNat + w ≤ 8 * s.winLen.toNat →
      exec (.rdU w) s = .next { s with
        result := BitVec.ofNat 32 (((List.range w).map fun k =>
          streamBit s.buf s.winStart.toNat (s.curOff.toNat + k) * 2 ^ (w - 1 - k)).sum)
        curOff := BitVec.ofNat 32 (s.curOff.toNat + w)
        status := { s.status with resSigned := false, err := none } })

/-- `rd.s W`, the word `0x02000020 | (W - 1)`: as `rd.u W`, but `RESULT` is the 32-bit pattern of `u - 2^W` if the first of the `W`
bits is 1 and of `u` otherwise (R119, 00_scope.md R13). -/
def Obligations.RdSReadsTheFieldSigned : Prop :=
  ∀ (s : State) (w : Nat), 1 ≤ w → w ≤ 32 →
    decode (0x02000020 ||| BitVec.ofNat 32 (w - 1)) = .ok (.rdS w) ∧
    (s.status.curValid = false →
      exec (.rdS w) s = .next { s with status := { s.status with err := some .noCursor, errSticky := true } }) ∧
    (s.status.curValid = true → 8 * s.winLen.toNat < s.curOff.toNat + w →
      exec (.rdS w) s = .next { s with
        status := { s.status with curValid := false, err := some .outOfRange, errSticky := true } }) ∧
    (s.status.curValid = true → s.winStart.toNat + s.winLen.toNat ≤ s.bufLen.toNat →
      s.curOff.toNat + w ≤ 8 * s.winLen.toNat →
      ∀ u : Nat, u = ((List.range w).map fun k =>
          streamBit s.buf s.winStart.toNat (s.curOff.toNat + k) * 2 ^ (w - 1 - k)).sum →
      exec (.rdS w) s = .next { s with
        result := BitVec.ofInt 32
          (if streamBit s.buf s.winStart.toNat s.curOff.toNat = 1 then (u : Int) - 2 ^ w else (u : Int))
        curOff := BitVec.ofNat 32 (s.curOff.toNat + w)
        status := { s.status with resSigned := true, err := none } })

/-- The bit-by-bit extraction and the source's byte accumulator with its shift and mask give the same value, at every
offset and width (R111, R112). -/
def Obligations.ExtractionIsTheAccumulatorRead : Prop :=
  ∀ (m : Memory) (ws o w : Nat), 1 ≤ w → w ≤ 32 → extract m ws o w = extractByBytes m ws o w

/-- The bytes a read touches (20_memory.md R69). They are the `bytesTouched o w` bytes from `ws + floor(o / 8)` on: the field depends
on no other byte, and on each of these (setting one of them from all zeros to 0xFF changes it). There are one to five of them, and
five exactly if `(o mod 8) + w > 32`. -/
def Obligations.ReadsTouchAtMostFiveBytes : Prop :=
  ∀ ws o w : Nat, 1 ≤ w → w ≤ 32 →
    (∀ m m' : Memory, (∀ a, ws + o / 8 ≤ a → a < ws + o / 8 + bytesTouched o w → m.get a = m'.get a) →
      extract m ws o w = extract m' ws o w) ∧
    (∀ j, j < bytesTouched o w → extract [⟨ws + o / 8 + j, 0xFF⟩] ws o w ≠ extract [] ws o w) ∧
    1 ≤ bytesTouched o w ∧ bytesTouched o w ≤ 5 ∧ (bytesTouched o w = 5 ↔ 32 < o % 8 + w)

/-- Reading `a` bits and then `b` bits gives `x` and `y` with `x * 2^b + y` the value of one read of `a + b` bits, and the same
cursor (20_memory.md R67). -/
def Obligations.NarrowReadsComposeToAWideRead : Prop :=
  ∀ (s : State) (a b : Nat), 1 ≤ a → 1 ≤ b → a + b ≤ 32 → s.status.curValid = true →
    s.winStart.toNat + s.winLen.toNat ≤ s.bufLen.toNat → 8 * s.winLen.toNat < 2 ^ 32 →
    s.curOff.toNat + (a + b) ≤ 8 * s.winLen.toNat →
    ∃ s1 s2 s3, exec (.rdU a) s = .next s1 ∧ exec (.rdU b) s1 = .next s2 ∧ exec (.rdU (a + b)) s = .next s3 ∧
      s1.result.toNat * 2 ^ b + s2.result.toNat = s3.result.toNat ∧ s2.curOff = s3.curOff

/-- Reading with `rd.s w` the `w`-bit pattern of an integer in the two's complement range gives the integer back (R119). -/
def Obligations.SignedFieldRoundTrips : Prop :=
  ∀ (s : State) (w : Nat) (v : Int), 1 ≤ w → w ≤ 32 → s.status.curValid = true →
    s.winStart.toNat + s.winLen.toNat ≤ s.bufLen.toNat → s.curOff.toNat + w ≤ 8 * s.winLen.toNat →
    -(2 ^ (w - 1) : Int) ≤ v → v < 2 ^ (w - 1) →
    (∀ k, k < w → (streamBit s.buf s.winStart.toNat (s.curOff.toNat + k) : Int) = v / 2 ^ (w - 1 - k) % 2) →
    ∃ t, exec (.rdS w) s = .next t ∧ toSigned32 t.result = v

/-- While a cursor exists, `CUR_OFF` only increases, by exactly the width of each successful read: a host action either makes a new
cursor, or keeps the window, and then moves the offset only if it is a read, by the read's width (R114). -/
def Obligations.CursorOffsetOnlyIncreases : Prop :=
  ∀ (a : HostAction) (s t : State), s.Inv → hostAct a s = .next t →
    s.status.curValid = true → t.status.curValid = true →
    a = .write 0x000 (encode .curSet) ∨
    (t.winStart = s.winStart ∧ t.winLen = s.winLen ∧
      ((∃ w, 1 ≤ w ∧ w ≤ 32 ∧ (a = .write 0x000 (encode (.rdU w)) ∨ a = .write 0x000 (encode (.rdS w))) ∧
          t.curOff.toNat = s.curOff.toNat + w) ∨
        ((∀ w, 1 ≤ w → w ≤ 32 → a ≠ .write 0x000 (encode (.rdU w)) ∧ a ≠ .write 0x000 (encode (.rdS w))) ∧
          t.curOff = s.curOff)))

/-! ## The scanner commands (42_scanner.md) -/

/-- The match test of R181: the header's three bytes lie in the buffer, the first is 0xD3, the top six bits of the second are
0, and the ten-bit length, high byte first, is not 0. -/
def Obligations.MatchTestIsTheFourConditions : Prop :=
  ∀ (m : Memory) (n i : Nat),
    (frameMatch m n i = true ↔
      i + 2 < n ∧ m.get i = 0xD3 ∧ (m.get (i + 1)).toNat < 4 ∧
        0 < 256 * (m.get (i + 1)).toNat + (m.get (i + 2)).toNat) ∧
    (frameMatch m n i = true → frameLength m i = 256 * (m.get (i + 1)).toNat + (m.get (i + 2)).toNat)

/-- `scan.start`, the word 0x10000000, begins a scan at byte 0 and ends any candidate (R189). -/
def Obligations.ScanStartBeginsAtByteZero : Prop :=
  decode 0x10000000 = .ok .scanStart ∧
  ∀ s : State, exec .scanStart s = .next { s with
    scanPos := 0,
    status := { s.status with scanActive := true, scanDone := false, candValid := false, err := none } }

/-- `scan.next`, the word 0x11000000: with no scan it raises `NO_SCAN` and writes nothing else; otherwise it takes the first index
from `SCAN_POS` on that matches and sets the scan to resume where `SCAN_RESUME` says; and if none matches the scan is done, with
no error, at `max(SCAN_POS, BUF_LEN)` (R190, R184, R187). -/
def Obligations.ScanNextFindsTheNextCandidate : Prop :=
  decode 0x11000000 = .ok .scanNext ∧
  ∀ s : State,
    (s.status.scanActive = false →
      exec .scanNext s = .next { s with status := { s.status with err := some .noScan, errSticky := true } }) ∧
    (s.status.scanActive = true → ∀ i, s.scanPos.toNat ≤ i → frameMatch s.buf s.bufLen.toNat i = true →
      (∀ k, s.scanPos.toNat ≤ k → k < i → frameMatch s.buf s.bufLen.toNat k = false) →
      exec .scanNext s = .next { s with
        candStart := BitVec.ofNat 32 i
        candLen := BitVec.ofNat 32 (frameLength s.buf i)
        candSpan := BitVec.ofNat 32 (frameLength s.buf i + 6)
        scanPos := BitVec.ofNat 32
          (match s.cfg.scanResume with
            | .lenPlus1 => i + frameLength s.buf i + 1
            | .lenPlus6 => i + frameLength s.buf i + 6)
        status := { s.status with candValid := true, err := none } }) ∧
    (s.status.scanActive = true →
      (∀ k, s.scanPos.toNat ≤ k → k < s.bufLen.toNat → frameMatch s.buf s.bufLen.toNat k = false) →
      exec .scanNext s = .next { s with
        scanPos := BitVec.ofNat 32 (max s.scanPos.toNat s.bufLen.toNat)
        status := { s.status with scanDone := true, candValid := false, err := none } })

/-- Each `scan.next` that yields a candidate at `i` sets `SCAN_POS` to at least `i + 2`, beyond the one it started from
(70_reset_and_hazards.md R241). -/
def Obligations.ScanNextMakesProgress : Prop :=
  ∀ s t : State, s.Inv → s.status.scanActive = true → exec .scanNext s = .next t → t.status.candValid = true →
    s.scanPos.toNat ≤ t.candStart.toNat ∧ t.candStart.toNat + 2 ≤ t.scanPos.toNat ∧
      t.candStart.toNat < t.bufLen.toNat

/-- The candidates a scan yields depend only on the buffer, its length and `SCAN_RESUME`; in particular scanning twice
yields the same candidates (R191). -/
def Obligations.ScanDependsOnlyOnTheBuffer : Prop :=
  ∀ s s' t t' : State, s'.buf = s.buf → s'.bufLen = s.bufLen → s'.cfg.scanResume = s.cfg.scanResume →
    exec .scanStart s = .next t → exec .scanStart s' = .next t' → ∀ fuel, scanAll fuel t = scanAll fuel t'

/-- The pipeline over any buffer that a load accepts ends by itself, within `BUF_LEN + 1` calls of `scan.next`, with
`SCAN_DONE = 1` and no command error (R192, 70_reset_and_hazards.md R234, R241, R243); the loop as a function is the model's own
(log entry 15). -/
def Obligations.PipelineEndsByItself : Prop :=
  ∀ (s : State) (bytes : List Byte), s.Inv → bytes.length ≤ s.cfg.bufBytesMax →
    ∃ rs t, runPipeline bytes s = some (rs, t) ∧ t.status.scanDone = true ∧ rs.length ≤ bytes.length ∧
      t.status.err = none ∧ t.status.errSticky = s.status.errSticky

/-- No outcome of a decode changes the scanner or the buffer: the next `scan.next` gives the same candidate, or the same end of
the scan, as if the decode had not run (60_exceptions.md R216). -/
def Obligations.DecodeIsInvisibleToTheScan : Prop :=
  ∀ (i : Instr) (s t u : State), (i = .decCand ∨ i = .decWin) → exec i s = .next t → exec .scanNext s = .next u →
    ∃ v, exec .scanNext t = .next v ∧ candidateOf v = candidateOf u ∧ v.status.candValid = u.status.candValid ∧
      v.status.scanDone = u.status.scanDone ∧ v.status.scanActive = u.status.scanActive ∧
      candidateOf t = candidateOf s ∧ t.status.scanActive = s.status.scanActive ∧ t.status.scanDone = s.status.scanDone ∧
      t.status.candValid = s.status.candValid ∧ t.buf = s.buf

/-! ## The decoder commands (41_decoder.md) -/

/-- `dec.cand`, the word 0x20000000, raises `NO_CANDIDATE` with nothing else written when there is no candidate, and otherwise is
the decode of the candidate's span clipped to the buffer's end; `dec.win`, the word 0x20000001, raises `WINDOW_RANGE` with
nothing else written when `[ARG0, ARG0 + ARG1)` leaves the buffer, and otherwise is the decode of that window (R155, R156). -/
def Obligations.DecodeCommandsDecodeTheirWindow : Prop :=
  decode 0x20000000 = .ok .decCand ∧ decode 0x20000001 = .ok .decWin ∧
  ∀ s : State,
    (s.status.candValid = false →
      exec .decCand s = .next { s with status := { s.status with err := some .noCandidate, errSticky := true } }) ∧
    (s.status.candValid = true → s.candStart.toNat ≤ s.bufLen.toNat →
      exec .decCand s =
        decodeWindow s.candStart (BitVec.ofNat 32 (min s.candSpan.toNat (s.bufLen.toNat - s.candStart.toNat))) s) ∧
    (s.bufLen.toNat < s.arg0.toNat + s.arg1.toNat →
      exec .decWin s = .next { s with status := { s.status with err := some .windowRange, errSticky := true } }) ∧
    (s.arg0.toNat + s.arg1.toNat ≤ s.bufLen.toNat → exec .decWin s = decodeWindow s.arg0 s.arg1 s)

/-- A window of fewer than 36 bits ends in TRUNCATED in the fixed reads, with as many slots as fixed reads fit in it (R143,
R150, R156). -/
def Obligations.ShortWindowIsTruncated : Prop :=
  ∀ (i : Instr) (s : State) (ws wl : Word), s.Inv → DecodesWindow i s ws wl → wl.toNat < 5 →
    ∃ t, exec i s = .next t ∧ t.frInfo = { outcome := some .truncated, msg := none } ∧ t.frErr = FrErr.zero ∧
      t.status.err = none ∧ t.status.curValid = false ∧ t.cntTrunc = s.cntTrunc + 1 ∧ t.cntRec = s.cntRec ∧
      t.cntSkip = s.cntSkip ∧ t.cntCfg = s.cntCfg ∧ t.winStart = ws ∧ t.winLen = wl ∧
      (wl.toNat = 0 → t.recCount = 0 ∧ t.curOff = 0) ∧ (wl.toNat = 1 → t.recCount = 1 ∧ t.curOff = 8) ∧
      (wl.toNat = 2 → t.recCount = 2 ∧ t.curOff = 14) ∧ (3 ≤ wl.toNat → t.recCount = 3 ∧ t.curOff = 24)

/-- A frame whose identifier is absent from the registry ends in SKIP with four slots, `FR_INFO.MSG` its identifier and
`CNT_SKIP` incremented (R144, R150). -/
def Obligations.UnknownMessageIsSkipped : Prop :=
  ∀ (i : Instr) (s : State) (ws wl : Word), s.Inv → DecodesWindow i s ws wl → 5 ≤ wl.toNat →
    lookupSchema s.cfg.registry (messageBits s ws).toNat = none →
    ∃ t, exec i s = .next t ∧ t.frInfo = { outcome := some .skip, msg := some (messageBits s ws) } ∧
      t.frErr = FrErr.zero ∧ t.recCount = 4 ∧ t.curOff = 36 ∧ t.status.err = none ∧ t.status.curValid = false ∧
      t.cntSkip = s.cntSkip + 1 ∧ t.cntRec = s.cntRec ∧ t.cntCfg = s.cntCfg ∧ t.cntTrunc = s.cntTrunc ∧
      t.winStart = ws ∧ t.winLen = wl

/-- A frame whose entry needs more than `REC_MAX` slots ends in CONFIG_ERROR with `REASON = 1`, `LIST = 0`, `IDX = 0` (R147,
R150). -/
def Obligations.OversizedEntryIsAConfigError : Prop :=
  ∀ (i : Instr) (s : State) (ws wl : Word) (e : SchemaEntry), s.Inv → DecodesWindow i s ws wl → 5 ≤ wl.toNat →
    lookupSchema s.cfg.registry (messageBits s ws).toNat = some e → s.cfg.recMax < 4 + (readList s.cfg e).length →
    ∃ t, exec i s = .next t ∧ t.frInfo = { outcome := some .configError, msg := some (messageBits s ws) } ∧
      t.frErr = { idx := 0, list := .header, reason := .size } ∧ t.recCount = 4 ∧ t.curOff = 36 ∧
      t.status.err = none ∧ t.status.curValid = false ∧ t.cntCfg = s.cntCfg + 1 ∧ t.cntRec = s.cntRec ∧
      t.cntSkip = s.cntSkip ∧ t.cntTrunc = s.cntTrunc ∧ t.winStart = ws ∧ t.winLen = wl

/-- A frame whose entry fits but has, in read order, a first element `it` with an invalid code ends in CONFIG_ERROR with `FR_ERR`
naming its list and index, whatever bits the window has left (R148, R150, R157). -/
def Obligations.InvalidDescriptorIsAConfigError : Prop :=
  ∀ (i : Instr) (s : State) (ws wl : Word) (e : SchemaEntry) (front back : List ReadItem) (it : ReadItem),
    s.Inv → DecodesWindow i s ws wl → 5 ≤ wl.toNat →
    lookupSchema s.cfg.registry (messageBits s ws).toNat = some e → 4 + (readList s.cfg e).length ≤ s.cfg.recMax →
    readList s.cfg e = front ++ it :: back → (∀ x ∈ front, codeValid x.desc.code = true) →
    codeValid it.desc.code = false →
    ∃ t, exec i s = .next t ∧ t.frInfo = { outcome := some .configError, msg := some (messageBits s ws) } ∧
      t.frErr = { idx := BitVec.ofNat 16 it.idx, list := it.list, reason := .tag } ∧ t.recCount = 4 ∧ t.curOff = 36 ∧
      t.status.err = none ∧ t.status.curValid = false ∧ t.cntCfg = s.cntCfg + 1 ∧ t.cntRec = s.cntRec ∧
      t.cntSkip = s.cntSkip ∧ t.cntTrunc = s.cntTrunc ∧ t.winStart = ws ∧ t.winLen = wl

/-- A frame whose entry is in order and whose fields do not all fit in the window ends in TRUNCATED at the first field that does
not fit: `REC_COUNT` counts the reads before it and `CUR_OFF` is its offset (R149, R150, R152). -/
def Obligations.SchemaReadPastTheWindowIsTruncated : Prop :=
  ∀ (i : Instr) (s : State) (ws wl : Word) (e : SchemaEntry), s.Inv → DecodesWindow i s ws wl → 5 ≤ wl.toNat →
    lookupSchema s.cfg.registry (messageBits s ws).toNat = some e → 4 + (readList s.cfg e).length ≤ s.cfg.recMax →
    (∀ x ∈ readList s.cfg e, codeValid x.desc.code = true) → 8 * wl.toNat < totalWidth (slotTypes s.cfg e) →
    ∃ t, exec i s = .next t ∧ t.frInfo = { outcome := some .truncated, msg := some (messageBits s ws) } ∧
      t.frErr = FrErr.zero ∧ 4 ≤ t.recCount.toNat ∧ t.recCount.toNat < 4 + (readList s.cfg e).length ∧
      t.curOff.toNat = fieldOffset (slotTypes s.cfg e) t.recCount.toNat ∧ t.curOff.toNat ≤ 8 * wl.toNat ∧
      8 * wl.toNat < fieldOffset (slotTypes s.cfg e) (t.recCount.toNat + 1) ∧ t.status.err = none ∧
      t.status.curValid = false ∧ t.cntTrunc = s.cntTrunc + 1 ∧ t.cntRec = s.cntRec ∧ t.cntSkip = s.cntSkip ∧
      t.cntCfg = s.cntCfg ∧ t.winStart = ws ∧ t.winLen = wl

/-- A frame whose entry is in order and whose fields all fit in the window ends in RECORD: one slot for every fixed read and
every element of the read list, each holding its field's bits, unsigned or sign-extended, packed one after the other
(R149, R150, R142, 10_state.md R32, 30_encoding.md R97). -/
def Obligations.FittingFrameIsARecord : Prop :=
  ∀ (i : Instr) (s : State) (ws wl : Word) (e : SchemaEntry), s.Inv → DecodesWindow i s ws wl → 5 ≤ wl.toNat →
    lookupSchema s.cfg.registry (messageBits s ws).toNat = some e → 4 + (readList s.cfg e).length ≤ s.cfg.recMax →
    (∀ x ∈ readList s.cfg e, codeValid x.desc.code = true) → totalWidth (slotTypes s.cfg e) ≤ 8 * wl.toNat →
    ∃ t, exec i s = .next t ∧ t.frInfo = { outcome := some .record, msg := some (messageBits s ws) } ∧
      t.frErr = FrErr.zero ∧ t.recCount.toNat = 4 + (readList s.cfg e).length ∧
      t.curOff.toNat = totalWidth (slotTypes s.cfg e) ∧
      (∀ k, k < 4 + (readList s.cfg e).length → recSlot k t = fieldSlot s.buf ws.toNat (slotTypes s.cfg e) k) ∧
      t.status.err = none ∧ t.status.curValid = false ∧ t.cntRec = s.cntRec + 1 ∧ t.cntSkip = s.cntSkip ∧
      t.cntCfg = s.cntCfg ∧ t.cntTrunc = s.cntTrunc ∧ t.winStart = ws ∧ t.winLen = wl

/-- However a decode ends, the slots below `REC_COUNT` hold the fields read, in order, and every other slot keeps its value
(R142, R143, 70_reset_and_hazards.md R238). -/
def Obligations.WrittenSlotsHoldFieldsOthersStay : Prop :=
  ∀ (i : Instr) (s t : State) (ws wl : Word), s.Inv → DecodesWindow i s ws wl → exec i s = .next t →
    (∀ k, k < t.recCount.toNat → recSlot k t = fieldSlot s.buf ws.toNat (decodeTypes s.cfg t.frInfo.msg) k) ∧
    (∀ k, t.recCount.toNat ≤ k → recSlot k t = recSlot k s) ∧
    t.curOff.toNat = fieldOffset (decodeTypes s.cfg t.frInfo.msg) t.recCount.toNat

/-- In a candidate's decode the first three slots, where they are read, echo the header the scanner matched: 0xD3, zero and the
candidate's length (R140, 30_encoding.md R95, 42_scanner.md R181). -/
def Obligations.CandidateDecodeEchoesTheHeader : Prop :=
  ∀ s t : State, s.Inv → s.status.candValid = true → exec .decCand s = .next t →
    t.recCount.toNat ≥ 3 ∧ recSlot 0 t = 0xD3 ∧ recSlot 1 t = 0 ∧ recSlot 2 t = s.candLen

/-- What a decode leaves unchanged, whatever its outcome: `RESULT`, `RES_SIGNED`, the operands, the scanner's registers and flags,
`ERR_STICKY`, and every byte of the buffer (10_state.md R34, R23, 60_exceptions.md R216). -/
def Obligations.DecodeFrame : Prop :=
  ∀ (i : Instr) (s t : State), (i = .decCand ∨ i = .decWin) → exec i s = .next t → t.status.err = none →
    t.result = s.result ∧ t.status.resSigned = s.status.resSigned ∧ t.arg0 = s.arg0 ∧ t.arg1 = s.arg1 ∧
      t.scanPos = s.scanPos ∧ t.candStart = s.candStart ∧ t.candLen = s.candLen ∧ t.candSpan = s.candSpan ∧
      t.status.scanActive = s.status.scanActive ∧ t.status.scanDone = s.status.scanDone ∧
      t.status.candValid = s.status.candValid ∧ t.status.errSticky = s.status.errSticky ∧ t.bufLen = s.bufLen ∧
      (∀ a, t.buf.get a = s.buf.get a) ∧ t.cfg = s.cfg

/-- A second `dec.cand` decodes the same frame again: the same outcome, record and cursor registers, and the same counter
incremented again (R155). -/
def Obligations.RepeatedDecodeGivesTheSameFrame : Prop :=
  ∀ s t : State, s.Inv → s.status.candValid = true → exec .decCand s = .next t →
    ∃ u, exec .decCand t = .next u ∧ u.frInfo = t.frInfo ∧ u.frErr = t.frErr ∧ u.recCount = t.recCount ∧
      (∀ k, recSlot k u = recSlot k t) ∧ u.curOff = t.curOff ∧ u.cntRec - t.cntRec = t.cntRec - s.cntRec ∧
      u.cntSkip - t.cntSkip = t.cntSkip - s.cntSkip ∧ u.cntCfg - t.cntCfg = t.cntCfg - s.cntCfg ∧
      u.cntTrunc - t.cntTrunc = t.cntTrunc - s.cntTrunc

/-- Every decode ends with no cursor: `rd.u` or `rd.s` right after it raises `NO_CURSOR`, and `WIN_START`, `WIN_LEN` and `CUR_OFF`
still show the decode's window (70_reset_and_hazards.md R239). -/
def Obligations.ReadAfterADecodeHasNoCursor : Prop :=
  ∀ (i : Instr) (s t : State) (ws wl : Word) (w : Nat), s.Inv → DecodesWindow i s ws wl → exec i s = .next t →
    t.status.curValid = false ∧ t.winStart = ws ∧ t.winLen = wl ∧ t.curOff.toNat ≤ 8 * wl.toNat ∧
    exec (.rdU w) t = .next { t with status := { t.status with err := some .noCursor, errSticky := true } } ∧
    exec (.rdS w) t = .next { t with status := { t.status with err := some .noCursor, errSticky := true } }

/-- The read list of an entry, position by position (R145, R146): its header descriptors from index 1 on and then its content
descriptors from `c0` on, each once and with its own list and index. -/
def Obligations.ReadListSkipsOnlyTheFirstDescriptors : Prop :=
  ∀ (c : Config) (e : SchemaEntry) (c0 : Nat), c0 = (if c.contentSkipFirst then 1 else 0) →
    (readList c e).map (fun it => it.desc) = e.header.drop 1 ++ e.content.drop c0 ∧
    (readList c e).length = (e.header.length - 1) + (e.content.length - c0) ∧
    (∀ i d, 1 ≤ i → e.header[i]? = some d → (readList c e)[i - 1]? = some { list := .header, idx := i, desc := d }) ∧
    ∀ j d, c0 ≤ j → e.content[j]? = some d →
      (readList c e)[(e.header.length - 1) + (j - c0)]? = some { list := .content, idx := j, desc := d }

/-- There is a decoded record exactly after a RECORD outcome; it has one pair for each slot, in slot order, and a name that
occurs twice maps to the value of its last occurrence (R153). -/
def Obligations.RecordIsTheSlotsWithTheirNames : Prop :=
  (∀ s : State, s.FrameInv →
    ((decodedRecord s).isSome = true ↔ s.frInfo.outcome = some .record)) ∧
  (∀ (s : State) (r : List (String × Int)), s.FrameInv → decodedRecord s = some r →
    r.length = s.recCount.toNat ∧ (r.map Prod.fst).take 4 = ["header", "zero", "length", "msg_number"] ∧
      ∀ id e, s.frInfo.msg = some id → lookupSchema s.cfg.registry id.toNat = some e →
        (r.map Prod.fst).drop 4 = (readList s.cfg e).map (fun it => it.desc.name) ∧
        ∀ k, k < s.recCount.toNat → (r.map Prod.snd)[k]? =
          some (if ((slotTypes s.cfg e).getD k ⟨0, false⟩).signed then toSigned32 (recSlot k s)
            else ((recSlot k s).toNat : Int))) ∧
  ∀ (r r' : List (String × Int)) (n : String) (v : Int), (∀ p ∈ r', p.1 ≠ n) →
    recordField n (r ++ (n, v) :: r') = some v

/-- What the pseudo-instructions expand to, an unresolvable tag being an assembly error (30_encoding.md R94). -/
def Obligations.PseudoInstructionsExpand : Prop :=
  (∀ w, 1 ≤ w → w ≤ 32 → (Pseudo.rdBit w).expand = some [.write cmdIndex (encode (.rdU w))]) ∧
  (∀ n, 1 ≤ n → n ≤ 32 →
    (Pseudo.rdTag ("uint" ++ toString n)).expand = some [.write cmdIndex (encode (.rdU n))] ∧
    (Pseudo.rdTag ("bit" ++ toString n)).expand = some [.write cmdIndex (encode (.rdU n))] ∧
    (Pseudo.rdTag ("int" ++ toString n)).expand = some [.write cmdIndex (encode (.rdS n))]) ∧
  (∀ tag, resolveTag tag = 0x00#8 → (Pseudo.rdTag tag).expand = none) ∧
  (∀ a l, (Pseudo.curOpen a l).expand =
    some [.write 0x003 a, .write 0x004 l, .write cmdIndex 0x01000000]) ∧
  (∀ a l, (Pseudo.decRange a l).expand =
    some [.write 0x003 a, .write 0x004 l, .write cmdIndex 0x20000001]) ∧
  (∀ s t, exec .scanNext s = .next t →
    frameNext s = if t.status.candValid then exec .decCand t else .next t)
end

