-- ==== Sys2Proof/Laws/Memory.lean ====
section
/-! SUPPORT. The input buffer: a load keeps the canonical form, what a loaded buffer reads as, and equal buffers are equal
lists (20_memory.md R61, R63). -/

namespace Sys2Proof.Machine

theorem Memory.wfFrom_weaken {m : Memory} {a b : Nat} (hab : a ≤ b) (h : Memory.wfFrom b m = true) :
    Memory.wfFrom a m = true := by
  cases m with
  | nil => rfl
  | cons c m =>
    simp only [Memory.wfFrom, Bool.and_eq_true, decide_eq_true_eq] at h ⊢
    exact ⟨⟨by omega, h.1.2⟩, h.2⟩

theorem Memory.wfFrom_ofBytesFrom (bs : List Byte) (a : Nat) :
    Memory.wfFrom a (Memory.ofBytesFrom a bs) = true := by
  induction bs generalizing a with
  | nil => rfl
  | cons b bs ih =>
    simp only [Memory.ofBytesFrom]
    split
    · exact Memory.wfFrom_weaken (Nat.le_succ a) (ih (a + 1))
    · simp [Memory.wfFrom, *]

/-- A load keeps the canonical form. -/
theorem Memory.wf_ofBytes (bs : List Byte) : Memory.wf (Memory.ofBytes bs) = true :=
  Memory.wfFrom_ofBytesFrom bs 0

theorem Memory.get_of_lt {m : Memory} {a b : Nat} (h : Memory.wfFrom b m = true) (hab : a < b) :
    Memory.get m a = Memory.unlisted := by
  induction m generalizing b with
  | nil => rfl
  | cons c m ih =>
    obtain ⟨k, v⟩ := c
    simp only [Memory.wfFrom, Bool.and_eq_true, decide_eq_true_eq] at h
    rw [Memory.get, if_neg (by omega)]
    exact ih h.2 (by omega)

theorem Memory.get_ofBytesFrom (bs : List Byte) (a i : Nat) :
    Memory.get (Memory.ofBytesFrom a bs) (a + i) = bs.getD i Memory.unlisted := by
  induction bs generalizing a i with
  | nil => simp [Memory.ofBytesFrom, Memory.get]
  | cons b bs ih =>
    have hwf := Memory.wfFrom_ofBytesFrom bs (a + 1)
    simp only [Memory.ofBytesFrom]
    cases i with
    | zero =>
      split
      next hb => simp [Memory.get_of_lt hwf (Nat.lt_succ_self a), hb]
      · simp [Memory.get]
    | succ i =>
      have hi := ih (a + 1) i
      rw [show a + (i + 1) = a + 1 + i by omega]
      split
      · simpa using hi
      · rw [Memory.get, if_neg (by omega)]
        simpa using hi

/-- A loaded buffer reads back as the bytes loaded, and as an unlisted address beyond them. -/
theorem Memory.get_ofBytes (bs : List Byte) (i : Nat) :
    Memory.get (Memory.ofBytes bs) i = bs.getD i Memory.unlisted := by
  simpa [Memory.ofBytes] using Memory.get_ofBytesFrom bs 0 i

theorem Memory.below_ofBytesFrom (bs : List Byte) (a : Nat) :
    Memory.below (a + bs.length) (Memory.ofBytesFrom a bs) = true := by
  induction bs generalizing a with
  | nil => rfl
  | cons b bs ih =>
    have h := ih (a + 1)
    rw [show a + 1 + bs.length = a + (b :: bs).length by simp; omega] at h
    simp only [Memory.ofBytesFrom]
    split
    · exact h
    · simp only [Memory.below, List.all_cons, Bool.and_eq_true, decide_eq_true_eq] at h ⊢
      exact ⟨by simp, h⟩

/-- A load lists no address beyond the bytes loaded. -/
theorem Memory.below_ofBytes (bs : List Byte) : Memory.below bs.length (Memory.ofBytes bs) = true := by
  simpa [Memory.ofBytes] using Memory.below_ofBytesFrom bs 0

theorem Memory.eq_of_get_eq_from {m m' : Memory} {a : Nat} (h : Memory.wfFrom a m = true)
    (h' : Memory.wfFrom a m' = true) (hget : ∀ i, Memory.get m i = Memory.get m' i) : m = m' := by
  induction m generalizing m' a with
  | nil =>
    cases m' with
    | nil => rfl
    | cons c m' =>
      obtain ⟨k, v⟩ := c
      simp only [Memory.wfFrom, Bool.and_eq_true, decide_eq_true_eq] at h'
      have := hget k
      simp only [Memory.get, if_true] at this
      exact absurd this.symm h'.1.2
  | cons c m ih =>
    obtain ⟨k, v⟩ := c
    simp only [Memory.wfFrom, Bool.and_eq_true, decide_eq_true_eq] at h
    cases m' with
    | nil =>
      have := hget k
      simp only [Memory.get, if_true] at this
      exact absurd this h.1.2
    | cons c' m' =>
      obtain ⟨k', v'⟩ := c'
      simp only [Memory.wfFrom, Bool.and_eq_true, decide_eq_true_eq] at h'
      have hk : k = k' := by
        rcases Nat.lt_trichotomy k k' with hlt | heq | hgt
        · have := hget k
          simp only [Memory.get, if_true, if_neg (Nat.ne_of_lt hlt)] at this
          rw [Memory.get_of_lt h'.2 (by omega)] at this
          exact absurd this h.1.2
        · exact heq
        · have := hget k'
          simp only [Memory.get, if_true, if_neg (Nat.ne_of_lt hgt)] at this
          rw [Memory.get_of_lt h.2 (by omega)] at this
          exact absurd this.symm h'.1.2
      subst hk
      have hv : v = v' := by simpa [Memory.get] using hget k
      subst hv
      rw [ih h.2 h'.2]
      intro i
      by_cases hi : i = k
      · subst hi
        rw [Memory.get_of_lt h.2 (Nat.lt_succ_self i), Memory.get_of_lt h'.2 (Nat.lt_succ_self i)]
      · simpa [Memory.get, hi] using hget i

/-- The canonical form is unique: buffers that read the same everywhere are the same list. -/
theorem Memory.eq_of_get_eq {m m' : Memory} (h : Memory.wf m = true) (h' : Memory.wf m' = true)
    (hget : ∀ i, Memory.get m i = Memory.get m' i) : m = m' :=
  Memory.eq_of_get_eq_from h h' hget

end Sys2Proof.Machine
end

