-- ==== Sys2Proof/Laws/Bits.lean ====
section
/-! SUPPORT. What a read of bits can do (40_cursor.md R111, R113), and the signed value of a field (00_scope.md R14). -/

namespace Sys2Proof.Machine

theorem streamBit_lt (m : Memory) (ws p : Nat) : streamBit m ws p < 2 :=
  Nat.mod_lt _ (by decide)

/-- A field of width `w` is below `2 ^ w` (R111). -/
theorem extract_lt (m : Memory) (ws o w : Nat) : extract m ws o w < 2 ^ w := by
  induction w with
  | zero => simp [extract]
  | succ w ih =>
    have := streamBit_lt m ws (o + w)
    rw [extract, Nat.pow_succ]
    omega

/-- A wide field is its high part followed by its low part (20_memory.md R67). -/
theorem extract_add (m : Memory) (ws o a b : Nat) :
    extract m ws o (a + b) = extract m ws o a * 2 ^ b + extract m ws (o + a) b := by
  induction b with
  | zero => simp [extract]
  | succ b ih =>
    rw [← Nat.add_assoc, extract, ih, extract, Nat.pow_succ]
    rw [show o + (a + b) = o + a + b by omega]
    generalize extract m ws o a = x
    generalize extract m ws (o + a) b = y
    generalize 2 ^ b = z
    rw [Nat.mul_add, Nat.mul_comm z 2, ← Nat.mul_assoc, ← Nat.mul_assoc, Nat.mul_comm x 2]
    omega

/-- A field is the sum of its bits, each at its place (40_cursor.md R111). -/
theorem extract_eq_sum (m : Memory) (ws o w : Nat) :
    extract m ws o w = ((List.range w).map fun k => streamBit m ws (o + k) * 2 ^ (w - 1 - k)).sum := by
  induction w with
  | zero => rfl
  | succ w ih =>
    have hshift : ((List.range w).map fun k => streamBit m ws (o + k) * 2 ^ (w + 1 - 1 - k)) =
        (List.range w).map fun k => 2 * (streamBit m ws (o + k) * 2 ^ (w - 1 - k)) := by
      apply List.map_congr_left
      intro k hk
      have hk := List.mem_range.mp hk
      rw [show w + 1 - 1 - k = (w - 1 - k) + 1 by omega, pow_succ]
      ring
    rw [extract, ih, List.range_succ, List.map_append, List.sum_append, hshift, List.sum_map_mul_left]
    simp

/-- A field depends only on its bits (40_cursor.md R111). -/
theorem extract_congr {m m' : Memory} {ws o w : Nat} (h : ∀ k, k < w → streamBit m ws (o + k) = streamBit m' ws (o + k)) :
    extract m ws o w = extract m' ws o w := by
  induction w with
  | zero => rfl
  | succ w ih => rw [extract, extract, ih fun k hk => h k (by omega), h w (by omega)]

/-- A field with a bit 1 is not zero. -/
theorem extract_pos {m : Memory} {ws o w k : Nat} (hk : k < w) (h : streamBit m ws (o + k) = 1) : 0 < extract m ws o w := by
  induction w with
  | zero => omega
  | succ w ih =>
    rw [extract]
    rcases Nat.lt_succ_iff_lt_or_eq.mp hk with h1 | rfl
    · have := ih h1; omega
    · omega

/-- A field of a memory of zeros is zero. -/
theorem extract_nil (ws o w : Nat) : extract [] ws o w = 0 := by
  induction w with
  | zero => rfl
  | succ w ih => rw [extract, ih]; simp [streamBit, Memory.get, Memory.unlisted]

/-- Every bit of the byte 0xFF is 1. -/
theorem streamBit_ff (ws p : Nat) : streamBit [⟨ws + p / 8, 0xFF⟩] ws p = 1 := by
  have : ∀ r, r < 8 → 255 / 2 ^ (7 - r) % 2 = 1 := by decide
  simp [streamBit, Memory.get]
  exact this _ (by omega)

/-- The top bit of a field is the first bit read (20_memory.md R65). -/
theorem extract_topBit (m : Memory) (ws o : Nat) {w : Nat} (h : 1 ≤ w) :
    extract m ws o w / 2 ^ (w - 1) % 2 = streamBit m ws o := by
  obtain ⟨n, rfl⟩ : ∃ n, w = 1 + n := ⟨w - 1, by omega⟩
  rw [extract_add, Nat.add_sub_cancel_left, Nat.mul_comm, Nat.mul_add_div (Nat.two_pow_pos n),
    Nat.div_eq_of_lt (extract_lt m ws (o + 1) n)]
  have := streamBit_lt m ws o
  simp [extract]
  omega

/-- Moving the first byte of a window on by `k` bytes is moving the offset on by `8 * k` bits (10_state.md R25). -/
theorem extract_base (m : Memory) (ws k o w : Nat) : extract m (ws + k) o w = extract m ws (8 * k + o) w := by
  have hbit : ∀ p, streamBit m (ws + k) p = streamBit m ws (8 * k + p) := by
    intro p
    simp only [streamBit]
    rw [show (8 * k + p) / 8 = k + p / 8 by omega, show (8 * k + p) % 8 = p % 8 by omega, Nat.add_assoc]
  induction w with
  | zero => rfl
  | succ w ih => simp only [extract, ih, hbit, Nat.add_assoc]

/-- Eight bits at a byte boundary are the byte. -/
theorem extract_byte (m : Memory) (ws : Nat) : extract m ws 0 8 = (m.get ws).toNat := by
  have := (m.get ws).isLt
  simp only [extract, streamBit]
  norm_num
  omega

/-- The accumulator of R112 holds the bits of its bytes. -/
theorem accumulate_eq_extract (m : Memory) (a n : Nat) : accumulate m a n = extract m a 0 (8 * n) := by
  induction n with
  | zero => rfl
  | succ n ih =>
    rw [accumulate, ih, Nat.mul_succ, extract_add, Nat.zero_add, ← extract_byte, extract_base, Nat.add_zero, Nat.mul_comm]

/-- The value a read gives depends only on the bytes of the buffer, the window and the offset. -/
theorem readBits_congr {s t : State} (w : Nat) (hb : t.buf = s.buf) (hn : t.bufLen = s.bufLen)
    (hs : t.winStart = s.winStart) (hl : t.winLen = s.winLen) (ho : t.curOff = s.curOff) :
    readBits w t = readBits w s := by
  simp only [readBits, hb, hn, hs, hl, ho]

/-- A read past the window is out of range (R113). -/
theorem readBits_past {s : State} {w : Nat} (h : 8 * s.winLen.toNat < s.curOff.toNat + w) :
    readBits w s = .past := by
  rw [readBits, if_pos h]

/-- A read within a window that lies in the buffer gives its field (R113). -/
theorem readBits_value {s : State} {w : Nat} (hw : 1 ≤ w)
    (hwin : s.winStart.toNat + s.winLen.toNat ≤ s.bufLen.toNat)
    (h : s.curOff.toNat + w ≤ 8 * s.winLen.toNat) :
    readBits w s = .value (extract s.buf s.winStart.toNat s.curOff.toNat w) := by
  rw [readBits, if_neg (by omega), if_neg]
  omega

/-- The three things a read can give. -/
theorem readBits_cases (w : Nat) (s : State) :
    (readBits w s = .past ∧ 8 * s.winLen.toNat < s.curOff.toNat + w) ∨
    (∃ a, readBits w s = .absent a ∧ s.bufLen.toNat ≤ a ∧ s.curOff.toNat + w ≤ 8 * s.winLen.toNat) ∨
    (readBits w s = .value (extract s.buf s.winStart.toNat s.curOff.toNat w) ∧
      s.curOff.toNat + w ≤ 8 * s.winLen.toNat) := by
  simp only [readBits]
  split
  · exact .inl ⟨rfl, by assumption⟩
  · split
    · exact .inr (.inl ⟨_, rfl, by assumption, by omega⟩)
    · exact .inr (.inr ⟨rfl, by omega⟩)

/-- The signed value of a field lies in the two's complement range (R14). -/
theorem signedW_range {w u : Nat} (hw : 1 ≤ w) (hu : u < 2 ^ w) :
    -(2 ^ (w - 1) : Int) ≤ signedW w u ∧ signedW w u ≤ (2 ^ (w - 1) : Int) - 1 := by
  obtain ⟨n, rfl⟩ : ∃ n, w = n + 1 := ⟨w - 1, by omega⟩
  rw [Nat.pow_succ] at hu
  have hp : 0 < 2 ^ n := Nat.two_pow_pos n
  have hc : ((2 ^ n : Nat) : Int) = 2 ^ n := by push_cast; ring
  simp only [signedW, Nat.add_sub_cancel, pow_succ]
  generalize hq : 2 ^ n = q at *
  have hd : u / q < 2 := Nat.div_lt_of_lt_mul hu
  split
  next h1 =>
    have h2 : u / q = 1 := by
      generalize u / q = z at hd h1 ⊢
      omega
    have h3 : q ≤ u := by
      have := Nat.div_mul_le_self u q
      rw [h2] at this
      omega
    rw [← hc]
    omega
  next h1 =>
    have h2 : u / q = 0 := by
      generalize u / q = z at hd h1 ⊢
      omega
    have h3 : u < q := (Nat.div_eq_zero_iff_lt hp).mp h2
    rw [← hc]
    omega

end Sys2Proof.Machine
end

