-- ==== Sys2Proof/Laws/State.lean ====
section
/-! SUPPORT. For each operation that updates the state: one lemma for each field it writes, and one that says which fields it
leaves unchanged (`simp` takes the latter apart). -/

namespace Sys2Proof.Machine

/-! ### `raiseError` -/

@[simp] theorem raiseError_err (e : CmdError) (s : State) : (raiseError e s).status.err = some e := rfl
@[simp] theorem raiseError_errSticky (e : CmdError) (s : State) : (raiseError e s).status.errSticky = true := rfl
/-- What `raiseError` leaves unchanged. -/
@[simp] theorem raiseError_frame (e : CmdError) (s : State) :
    (raiseError e s).cfg = s.cfg ∧ (raiseError e s).buf = s.buf ∧ (raiseError e s).bufLen = s.bufLen ∧
    (raiseError e s).arg0 = s.arg0 ∧ (raiseError e s).arg1 = s.arg1 ∧ (raiseError e s).winStart = s.winStart ∧
    (raiseError e s).winLen = s.winLen ∧ (raiseError e s).curOff = s.curOff ∧ (raiseError e s).result = s.result ∧
    (raiseError e s).scanPos = s.scanPos ∧ (raiseError e s).candStart = s.candStart ∧
    (raiseError e s).candLen = s.candLen ∧ (raiseError e s).candSpan = s.candSpan ∧
    (raiseError e s).frInfo = s.frInfo ∧ (raiseError e s).frErr = s.frErr ∧ (raiseError e s).recCount = s.recCount ∧
    (raiseError e s).cntRec = s.cntRec ∧ (raiseError e s).cntSkip = s.cntSkip ∧ (raiseError e s).cntCfg = s.cntCfg ∧
    (raiseError e s).cntTrunc = s.cntTrunc ∧ (raiseError e s).recVal = s.recVal ∧
    (raiseError e s).hostQueue = s.hostQueue ∧ (raiseError e s).replies = s.replies ∧
    (raiseError e s).status.curValid = s.status.curValid ∧ (raiseError e s).status.scanActive = s.status.scanActive ∧
    (raiseError e s).status.scanDone = s.status.scanDone ∧ (raiseError e s).status.candValid = s.status.candValid ∧
    (raiseError e s).status.resSigned = s.status.resSigned := by
  and_intros <;> rfl

/-! ### `completeCommand` -/

@[simp] theorem completeCommand_err (s : State) : (completeCommand s).status.err = none := rfl
/-- What `completeCommand` leaves unchanged. -/
@[simp] theorem completeCommand_frame (s : State) :
    (completeCommand s).cfg = s.cfg ∧ (completeCommand s).buf = s.buf ∧ (completeCommand s).bufLen = s.bufLen ∧
    (completeCommand s).arg0 = s.arg0 ∧ (completeCommand s).arg1 = s.arg1 ∧
    (completeCommand s).winStart = s.winStart ∧ (completeCommand s).winLen = s.winLen ∧
    (completeCommand s).curOff = s.curOff ∧ (completeCommand s).result = s.result ∧
    (completeCommand s).scanPos = s.scanPos ∧ (completeCommand s).candStart = s.candStart ∧
    (completeCommand s).candLen = s.candLen ∧ (completeCommand s).candSpan = s.candSpan ∧
    (completeCommand s).frInfo = s.frInfo ∧ (completeCommand s).frErr = s.frErr ∧
    (completeCommand s).recCount = s.recCount ∧ (completeCommand s).cntRec = s.cntRec ∧
    (completeCommand s).cntSkip = s.cntSkip ∧ (completeCommand s).cntCfg = s.cntCfg ∧
    (completeCommand s).cntTrunc = s.cntTrunc ∧ (completeCommand s).recVal = s.recVal ∧
    (completeCommand s).hostQueue = s.hostQueue ∧ (completeCommand s).replies = s.replies ∧
    (completeCommand s).status.errSticky = s.status.errSticky ∧
    (completeCommand s).status.curValid = s.status.curValid ∧
    (completeCommand s).status.scanActive = s.status.scanActive ∧
    (completeCommand s).status.scanDone = s.status.scanDone ∧
    (completeCommand s).status.candValid = s.status.candValid ∧
    (completeCommand s).status.resSigned = s.status.resSigned := by
  and_intros <;> rfl

/-! ### `openCursor` -/

@[simp] theorem openCursor_winStart (ws wl : Word) (s : State) : (openCursor ws wl s).winStart = ws := rfl
@[simp] theorem openCursor_winLen (ws wl : Word) (s : State) : (openCursor ws wl s).winLen = wl := rfl
@[simp] theorem openCursor_curOff (ws wl : Word) (s : State) : (openCursor ws wl s).curOff = 0 := rfl
@[simp] theorem openCursor_curValid (ws wl : Word) (s : State) : (openCursor ws wl s).status.curValid = true := rfl
/-- What `openCursor` leaves unchanged. -/
@[simp] theorem openCursor_frame (ws wl : Word) (s : State) :
    (openCursor ws wl s).cfg = s.cfg ∧ (openCursor ws wl s).buf = s.buf ∧ (openCursor ws wl s).bufLen = s.bufLen ∧
    (openCursor ws wl s).arg0 = s.arg0 ∧ (openCursor ws wl s).arg1 = s.arg1 ∧
    (openCursor ws wl s).result = s.result ∧ (openCursor ws wl s).scanPos = s.scanPos ∧
    (openCursor ws wl s).candStart = s.candStart ∧ (openCursor ws wl s).candLen = s.candLen ∧
    (openCursor ws wl s).candSpan = s.candSpan ∧ (openCursor ws wl s).frInfo = s.frInfo ∧
    (openCursor ws wl s).frErr = s.frErr ∧ (openCursor ws wl s).recCount = s.recCount ∧
    (openCursor ws wl s).cntRec = s.cntRec ∧ (openCursor ws wl s).cntSkip = s.cntSkip ∧
    (openCursor ws wl s).cntCfg = s.cntCfg ∧ (openCursor ws wl s).cntTrunc = s.cntTrunc ∧
    (openCursor ws wl s).recVal = s.recVal ∧ (openCursor ws wl s).hostQueue = s.hostQueue ∧
    (openCursor ws wl s).replies = s.replies ∧ (openCursor ws wl s).status.err = s.status.err ∧
    (openCursor ws wl s).status.errSticky = s.status.errSticky ∧
    (openCursor ws wl s).status.scanActive = s.status.scanActive ∧
    (openCursor ws wl s).status.scanDone = s.status.scanDone ∧
    (openCursor ws wl s).status.candValid = s.status.candValid ∧
    (openCursor ws wl s).status.resSigned = s.status.resSigned := by
  and_intros <;> rfl

/-! ### `closeCursor` -/

@[simp] theorem closeCursor_curValid (s : State) : (closeCursor s).status.curValid = false := rfl
/-- What `closeCursor` leaves unchanged. -/
@[simp] theorem closeCursor_frame (s : State) :
    (closeCursor s).cfg = s.cfg ∧ (closeCursor s).buf = s.buf ∧ (closeCursor s).bufLen = s.bufLen ∧
    (closeCursor s).arg0 = s.arg0 ∧ (closeCursor s).arg1 = s.arg1 ∧ (closeCursor s).winStart = s.winStart ∧
    (closeCursor s).winLen = s.winLen ∧ (closeCursor s).curOff = s.curOff ∧ (closeCursor s).result = s.result ∧
    (closeCursor s).scanPos = s.scanPos ∧ (closeCursor s).candStart = s.candStart ∧
    (closeCursor s).candLen = s.candLen ∧ (closeCursor s).candSpan = s.candSpan ∧ (closeCursor s).frInfo = s.frInfo ∧
    (closeCursor s).frErr = s.frErr ∧ (closeCursor s).recCount = s.recCount ∧ (closeCursor s).cntRec = s.cntRec ∧
    (closeCursor s).cntSkip = s.cntSkip ∧ (closeCursor s).cntCfg = s.cntCfg ∧ (closeCursor s).cntTrunc = s.cntTrunc ∧
    (closeCursor s).recVal = s.recVal ∧ (closeCursor s).hostQueue = s.hostQueue ∧
    (closeCursor s).replies = s.replies ∧ (closeCursor s).status.err = s.status.err ∧
    (closeCursor s).status.errSticky = s.status.errSticky ∧ (closeCursor s).status.scanActive = s.status.scanActive ∧
    (closeCursor s).status.scanDone = s.status.scanDone ∧ (closeCursor s).status.candValid = s.status.candValid ∧
    (closeCursor s).status.resSigned = s.status.resSigned := by
  and_intros <;> rfl

/-! ### `advanceCursor` -/

@[simp] theorem advanceCursor_curOff (w : Nat) (s : State) : (advanceCursor w s).curOff = BitVec.ofNat 32 (s.curOff.toNat + w) := rfl
/-- What `advanceCursor` leaves unchanged. -/
@[simp] theorem advanceCursor_frame (w : Nat) (s : State) :
    (advanceCursor w s).cfg = s.cfg ∧ (advanceCursor w s).buf = s.buf ∧ (advanceCursor w s).bufLen = s.bufLen ∧
    (advanceCursor w s).status = s.status ∧ (advanceCursor w s).arg0 = s.arg0 ∧ (advanceCursor w s).arg1 = s.arg1 ∧
    (advanceCursor w s).winStart = s.winStart ∧ (advanceCursor w s).winLen = s.winLen ∧
    (advanceCursor w s).result = s.result ∧ (advanceCursor w s).scanPos = s.scanPos ∧
    (advanceCursor w s).candStart = s.candStart ∧ (advanceCursor w s).candLen = s.candLen ∧
    (advanceCursor w s).candSpan = s.candSpan ∧ (advanceCursor w s).frInfo = s.frInfo ∧
    (advanceCursor w s).frErr = s.frErr ∧ (advanceCursor w s).recCount = s.recCount ∧
    (advanceCursor w s).cntRec = s.cntRec ∧ (advanceCursor w s).cntSkip = s.cntSkip ∧
    (advanceCursor w s).cntCfg = s.cntCfg ∧ (advanceCursor w s).cntTrunc = s.cntTrunc ∧
    (advanceCursor w s).recVal = s.recVal ∧ (advanceCursor w s).hostQueue = s.hostQueue ∧
    (advanceCursor w s).replies = s.replies := by
  and_intros <;> rfl

/-! ### `setResult` -/

@[simp] theorem setResult_result (b : Bool) (v : Word) (s : State) : (setResult b v s).result = v := rfl
@[simp] theorem setResult_resSigned (b : Bool) (v : Word) (s : State) : (setResult b v s).status.resSigned = b := rfl
/-- What `setResult` leaves unchanged. -/
@[simp] theorem setResult_frame (b : Bool) (v : Word) (s : State) :
    (setResult b v s).cfg = s.cfg ∧ (setResult b v s).buf = s.buf ∧ (setResult b v s).bufLen = s.bufLen ∧
    (setResult b v s).arg0 = s.arg0 ∧ (setResult b v s).arg1 = s.arg1 ∧ (setResult b v s).winStart = s.winStart ∧
    (setResult b v s).winLen = s.winLen ∧ (setResult b v s).curOff = s.curOff ∧
    (setResult b v s).scanPos = s.scanPos ∧ (setResult b v s).candStart = s.candStart ∧
    (setResult b v s).candLen = s.candLen ∧ (setResult b v s).candSpan = s.candSpan ∧
    (setResult b v s).frInfo = s.frInfo ∧ (setResult b v s).frErr = s.frErr ∧
    (setResult b v s).recCount = s.recCount ∧ (setResult b v s).cntRec = s.cntRec ∧
    (setResult b v s).cntSkip = s.cntSkip ∧ (setResult b v s).cntCfg = s.cntCfg ∧
    (setResult b v s).cntTrunc = s.cntTrunc ∧ (setResult b v s).recVal = s.recVal ∧
    (setResult b v s).hostQueue = s.hostQueue ∧ (setResult b v s).replies = s.replies ∧
    (setResult b v s).status.err = s.status.err ∧ (setResult b v s).status.errSticky = s.status.errSticky ∧
    (setResult b v s).status.curValid = s.status.curValid ∧
    (setResult b v s).status.scanActive = s.status.scanActive ∧
    (setResult b v s).status.scanDone = s.status.scanDone ∧ (setResult b v s).status.candValid = s.status.candValid := by
  and_intros <;> rfl

/-! ### `beginScan` -/

@[simp] theorem beginScan_scanPos (s : State) : (beginScan s).scanPos = 0 := rfl
@[simp] theorem beginScan_scanActive (s : State) : (beginScan s).status.scanActive = true := rfl
@[simp] theorem beginScan_scanDone (s : State) : (beginScan s).status.scanDone = false := rfl
@[simp] theorem beginScan_candValid (s : State) : (beginScan s).status.candValid = false := rfl
/-- What `beginScan` leaves unchanged. -/
@[simp] theorem beginScan_frame (s : State) :
    (beginScan s).cfg = s.cfg ∧ (beginScan s).buf = s.buf ∧ (beginScan s).bufLen = s.bufLen ∧
    (beginScan s).arg0 = s.arg0 ∧ (beginScan s).arg1 = s.arg1 ∧ (beginScan s).winStart = s.winStart ∧
    (beginScan s).winLen = s.winLen ∧ (beginScan s).curOff = s.curOff ∧ (beginScan s).result = s.result ∧
    (beginScan s).candStart = s.candStart ∧ (beginScan s).candLen = s.candLen ∧ (beginScan s).candSpan = s.candSpan ∧
    (beginScan s).frInfo = s.frInfo ∧ (beginScan s).frErr = s.frErr ∧ (beginScan s).recCount = s.recCount ∧
    (beginScan s).cntRec = s.cntRec ∧ (beginScan s).cntSkip = s.cntSkip ∧ (beginScan s).cntCfg = s.cntCfg ∧
    (beginScan s).cntTrunc = s.cntTrunc ∧ (beginScan s).recVal = s.recVal ∧ (beginScan s).hostQueue = s.hostQueue ∧
    (beginScan s).replies = s.replies ∧ (beginScan s).status.err = s.status.err ∧
    (beginScan s).status.errSticky = s.status.errSticky ∧ (beginScan s).status.curValid = s.status.curValid ∧
    (beginScan s).status.resSigned = s.status.resSigned := by
  and_intros <;> rfl

/-! ### `setCandidate` -/

@[simp] theorem setCandidate_candStart (i len next : Nat) (s : State) : (setCandidate i len next s).candStart = BitVec.ofNat 32 i := rfl
@[simp] theorem setCandidate_candLen (i len next : Nat) (s : State) : (setCandidate i len next s).candLen = BitVec.ofNat 32 len := rfl
@[simp] theorem setCandidate_candSpan (i len next : Nat) (s : State) : (setCandidate i len next s).candSpan = BitVec.ofNat 32 (len + 6) := rfl
@[simp] theorem setCandidate_scanPos (i len next : Nat) (s : State) : (setCandidate i len next s).scanPos = BitVec.ofNat 32 next := rfl
@[simp] theorem setCandidate_candValid (i len next : Nat) (s : State) : (setCandidate i len next s).status.candValid = true := rfl
/-- What `setCandidate` leaves unchanged. -/
@[simp] theorem setCandidate_frame (i len next : Nat) (s : State) :
    (setCandidate i len next s).cfg = s.cfg ∧ (setCandidate i len next s).buf = s.buf ∧
    (setCandidate i len next s).bufLen = s.bufLen ∧ (setCandidate i len next s).arg0 = s.arg0 ∧
    (setCandidate i len next s).arg1 = s.arg1 ∧ (setCandidate i len next s).winStart = s.winStart ∧
    (setCandidate i len next s).winLen = s.winLen ∧ (setCandidate i len next s).curOff = s.curOff ∧
    (setCandidate i len next s).result = s.result ∧ (setCandidate i len next s).frInfo = s.frInfo ∧
    (setCandidate i len next s).frErr = s.frErr ∧ (setCandidate i len next s).recCount = s.recCount ∧
    (setCandidate i len next s).cntRec = s.cntRec ∧ (setCandidate i len next s).cntSkip = s.cntSkip ∧
    (setCandidate i len next s).cntCfg = s.cntCfg ∧ (setCandidate i len next s).cntTrunc = s.cntTrunc ∧
    (setCandidate i len next s).recVal = s.recVal ∧ (setCandidate i len next s).hostQueue = s.hostQueue ∧
    (setCandidate i len next s).replies = s.replies ∧ (setCandidate i len next s).status.err = s.status.err ∧
    (setCandidate i len next s).status.errSticky = s.status.errSticky ∧
    (setCandidate i len next s).status.curValid = s.status.curValid ∧
    (setCandidate i len next s).status.scanActive = s.status.scanActive ∧
    (setCandidate i len next s).status.scanDone = s.status.scanDone ∧
    (setCandidate i len next s).status.resSigned = s.status.resSigned := by
  and_intros <;> rfl

/-! ### `endScan` -/

@[simp] theorem endScan_scanPos (i : Nat) (s : State) : (endScan i s).scanPos = BitVec.ofNat 32 i := rfl
@[simp] theorem endScan_scanDone (i : Nat) (s : State) : (endScan i s).status.scanDone = true := rfl
@[simp] theorem endScan_candValid (i : Nat) (s : State) : (endScan i s).status.candValid = false := rfl
/-- What `endScan` leaves unchanged. -/
@[simp] theorem endScan_frame (i : Nat) (s : State) :
    (endScan i s).cfg = s.cfg ∧ (endScan i s).buf = s.buf ∧ (endScan i s).bufLen = s.bufLen ∧
    (endScan i s).arg0 = s.arg0 ∧ (endScan i s).arg1 = s.arg1 ∧ (endScan i s).winStart = s.winStart ∧
    (endScan i s).winLen = s.winLen ∧ (endScan i s).curOff = s.curOff ∧ (endScan i s).result = s.result ∧
    (endScan i s).candStart = s.candStart ∧ (endScan i s).candLen = s.candLen ∧ (endScan i s).candSpan = s.candSpan ∧
    (endScan i s).frInfo = s.frInfo ∧ (endScan i s).frErr = s.frErr ∧ (endScan i s).recCount = s.recCount ∧
    (endScan i s).cntRec = s.cntRec ∧ (endScan i s).cntSkip = s.cntSkip ∧ (endScan i s).cntCfg = s.cntCfg ∧
    (endScan i s).cntTrunc = s.cntTrunc ∧ (endScan i s).recVal = s.recVal ∧ (endScan i s).hostQueue = s.hostQueue ∧
    (endScan i s).replies = s.replies ∧ (endScan i s).status.err = s.status.err ∧
    (endScan i s).status.errSticky = s.status.errSticky ∧ (endScan i s).status.curValid = s.status.curValid ∧
    (endScan i s).status.scanActive = s.status.scanActive ∧ (endScan i s).status.resSigned = s.status.resSigned := by
  and_intros <;> rfl

/-! ### `clearFrame` -/

@[simp] theorem clearFrame_recCount (s : State) : (clearFrame s).recCount = 0 := rfl
@[simp] theorem clearFrame_frInfo (s : State) : (clearFrame s).frInfo = FrInfo.zero := rfl
@[simp] theorem clearFrame_frErr (s : State) : (clearFrame s).frErr = FrErr.zero := rfl
/-- What `clearFrame` leaves unchanged. -/
@[simp] theorem clearFrame_frame (s : State) :
    (clearFrame s).cfg = s.cfg ∧ (clearFrame s).buf = s.buf ∧ (clearFrame s).bufLen = s.bufLen ∧
    (clearFrame s).status = s.status ∧ (clearFrame s).arg0 = s.arg0 ∧ (clearFrame s).arg1 = s.arg1 ∧
    (clearFrame s).winStart = s.winStart ∧ (clearFrame s).winLen = s.winLen ∧ (clearFrame s).curOff = s.curOff ∧
    (clearFrame s).result = s.result ∧ (clearFrame s).scanPos = s.scanPos ∧ (clearFrame s).candStart = s.candStart ∧
    (clearFrame s).candLen = s.candLen ∧ (clearFrame s).candSpan = s.candSpan ∧ (clearFrame s).cntRec = s.cntRec ∧
    (clearFrame s).cntSkip = s.cntSkip ∧ (clearFrame s).cntCfg = s.cntCfg ∧ (clearFrame s).cntTrunc = s.cntTrunc ∧
    (clearFrame s).recVal = s.recVal ∧ (clearFrame s).hostQueue = s.hostQueue ∧ (clearFrame s).replies = s.replies := by
  and_intros <;> rfl

/-! ### `pushSlot` -/

@[simp] theorem pushSlot_recVal (v : Word) (s : State) : (pushSlot v s).recVal = s.recVal.set s.recCount.toNat v := rfl
@[simp] theorem pushSlot_recCount (v : Word) (s : State) : (pushSlot v s).recCount = BitVec.ofNat 32 (s.recCount.toNat + 1) := rfl
/-- What `pushSlot` leaves unchanged. -/
@[simp] theorem pushSlot_frame (v : Word) (s : State) :
    (pushSlot v s).cfg = s.cfg ∧ (pushSlot v s).buf = s.buf ∧ (pushSlot v s).bufLen = s.bufLen ∧
    (pushSlot v s).status = s.status ∧ (pushSlot v s).arg0 = s.arg0 ∧ (pushSlot v s).arg1 = s.arg1 ∧
    (pushSlot v s).winStart = s.winStart ∧ (pushSlot v s).winLen = s.winLen ∧ (pushSlot v s).curOff = s.curOff ∧
    (pushSlot v s).result = s.result ∧ (pushSlot v s).scanPos = s.scanPos ∧ (pushSlot v s).candStart = s.candStart ∧
    (pushSlot v s).candLen = s.candLen ∧ (pushSlot v s).candSpan = s.candSpan ∧ (pushSlot v s).frInfo = s.frInfo ∧
    (pushSlot v s).frErr = s.frErr ∧ (pushSlot v s).cntRec = s.cntRec ∧ (pushSlot v s).cntSkip = s.cntSkip ∧
    (pushSlot v s).cntCfg = s.cntCfg ∧ (pushSlot v s).cntTrunc = s.cntTrunc ∧
    (pushSlot v s).hostQueue = s.hostQueue ∧ (pushSlot v s).replies = s.replies := by
  and_intros <;> rfl

/-! ### `emitValue` -/

@[simp] theorem emitValue_curOff (f : FieldType) (u : Nat) (s : State) : (emitValue f u s).curOff = BitVec.ofNat 32 (s.curOff.toNat + f.width) := rfl
@[simp] theorem emitValue_recVal (f : FieldType) (u : Nat) (s : State) : (emitValue f u s).recVal = s.recVal.set s.recCount.toNat (fieldPattern f.signed f.width u) := rfl
@[simp] theorem emitValue_recCount (f : FieldType) (u : Nat) (s : State) : (emitValue f u s).recCount = BitVec.ofNat 32 (s.recCount.toNat + 1) := rfl
/-- What `emitValue` leaves unchanged. -/
@[simp] theorem emitValue_frame (f : FieldType) (u : Nat) (s : State) :
    (emitValue f u s).cfg = s.cfg ∧ (emitValue f u s).buf = s.buf ∧ (emitValue f u s).bufLen = s.bufLen ∧
    (emitValue f u s).status = s.status ∧ (emitValue f u s).arg0 = s.arg0 ∧ (emitValue f u s).arg1 = s.arg1 ∧
    (emitValue f u s).winStart = s.winStart ∧ (emitValue f u s).winLen = s.winLen ∧
    (emitValue f u s).result = s.result ∧ (emitValue f u s).scanPos = s.scanPos ∧
    (emitValue f u s).candStart = s.candStart ∧ (emitValue f u s).candLen = s.candLen ∧
    (emitValue f u s).candSpan = s.candSpan ∧ (emitValue f u s).frInfo = s.frInfo ∧
    (emitValue f u s).frErr = s.frErr ∧ (emitValue f u s).cntRec = s.cntRec ∧ (emitValue f u s).cntSkip = s.cntSkip ∧
    (emitValue f u s).cntCfg = s.cntCfg ∧ (emitValue f u s).cntTrunc = s.cntTrunc ∧
    (emitValue f u s).hostQueue = s.hostQueue ∧ (emitValue f u s).replies = s.replies := by
  and_intros <;> rfl

/-! ### `setMessage` -/

@[simp] theorem setMessage_frInfo (m : BitVec 12) (s : State) : (setMessage m s).frInfo = { s.frInfo with msg := some m } := rfl
/-- What `setMessage` leaves unchanged. -/
@[simp] theorem setMessage_frame (m : BitVec 12) (s : State) :
    (setMessage m s).cfg = s.cfg ∧ (setMessage m s).buf = s.buf ∧ (setMessage m s).bufLen = s.bufLen ∧
    (setMessage m s).status = s.status ∧ (setMessage m s).arg0 = s.arg0 ∧ (setMessage m s).arg1 = s.arg1 ∧
    (setMessage m s).winStart = s.winStart ∧ (setMessage m s).winLen = s.winLen ∧
    (setMessage m s).curOff = s.curOff ∧ (setMessage m s).result = s.result ∧ (setMessage m s).scanPos = s.scanPos ∧
    (setMessage m s).candStart = s.candStart ∧ (setMessage m s).candLen = s.candLen ∧
    (setMessage m s).candSpan = s.candSpan ∧ (setMessage m s).frErr = s.frErr ∧
    (setMessage m s).recCount = s.recCount ∧ (setMessage m s).cntRec = s.cntRec ∧
    (setMessage m s).cntSkip = s.cntSkip ∧ (setMessage m s).cntCfg = s.cntCfg ∧
    (setMessage m s).cntTrunc = s.cntTrunc ∧ (setMessage m s).recVal = s.recVal ∧
    (setMessage m s).hostQueue = s.hostQueue ∧ (setMessage m s).replies = s.replies := by
  and_intros <;> rfl

/-! ### `setFrErr` -/

@[simp] theorem setFrErr_frErr (e : FrErr) (s : State) : (setFrErr e s).frErr = e := rfl
/-- What `setFrErr` leaves unchanged. -/
@[simp] theorem setFrErr_frame (e : FrErr) (s : State) :
    (setFrErr e s).cfg = s.cfg ∧ (setFrErr e s).buf = s.buf ∧ (setFrErr e s).bufLen = s.bufLen ∧
    (setFrErr e s).status = s.status ∧ (setFrErr e s).arg0 = s.arg0 ∧ (setFrErr e s).arg1 = s.arg1 ∧
    (setFrErr e s).winStart = s.winStart ∧ (setFrErr e s).winLen = s.winLen ∧ (setFrErr e s).curOff = s.curOff ∧
    (setFrErr e s).result = s.result ∧ (setFrErr e s).scanPos = s.scanPos ∧ (setFrErr e s).candStart = s.candStart ∧
    (setFrErr e s).candLen = s.candLen ∧ (setFrErr e s).candSpan = s.candSpan ∧ (setFrErr e s).frInfo = s.frInfo ∧
    (setFrErr e s).recCount = s.recCount ∧ (setFrErr e s).cntRec = s.cntRec ∧ (setFrErr e s).cntSkip = s.cntSkip ∧
    (setFrErr e s).cntCfg = s.cntCfg ∧ (setFrErr e s).cntTrunc = s.cntTrunc ∧ (setFrErr e s).recVal = s.recVal ∧
    (setFrErr e s).hostQueue = s.hostQueue ∧ (setFrErr e s).replies = s.replies := by
  and_intros <;> rfl

/-! ### `setOutcome` -/

@[simp] theorem setOutcome_frInfo (o : FrameOutcome) (s : State) : (setOutcome o s).frInfo = { s.frInfo with outcome := some o } := rfl
/-- What `setOutcome` leaves unchanged. -/
@[simp] theorem setOutcome_frame (o : FrameOutcome) (s : State) :
    (setOutcome o s).cfg = s.cfg ∧ (setOutcome o s).buf = s.buf ∧ (setOutcome o s).bufLen = s.bufLen ∧
    (setOutcome o s).status = s.status ∧ (setOutcome o s).arg0 = s.arg0 ∧ (setOutcome o s).arg1 = s.arg1 ∧
    (setOutcome o s).winStart = s.winStart ∧ (setOutcome o s).winLen = s.winLen ∧
    (setOutcome o s).curOff = s.curOff ∧ (setOutcome o s).result = s.result ∧ (setOutcome o s).scanPos = s.scanPos ∧
    (setOutcome o s).candStart = s.candStart ∧ (setOutcome o s).candLen = s.candLen ∧
    (setOutcome o s).candSpan = s.candSpan ∧ (setOutcome o s).frErr = s.frErr ∧
    (setOutcome o s).recCount = s.recCount ∧ (setOutcome o s).cntRec = s.cntRec ∧
    (setOutcome o s).cntSkip = s.cntSkip ∧ (setOutcome o s).cntCfg = s.cntCfg ∧
    (setOutcome o s).cntTrunc = s.cntTrunc ∧ (setOutcome o s).recVal = s.recVal ∧
    (setOutcome o s).hostQueue = s.hostQueue ∧ (setOutcome o s).replies = s.replies := by
  and_intros <;> rfl

/-! ### `setArg0` -/

@[simp] theorem setArg0_arg0 (v : Word) (s : State) : (setArg0 v s).arg0 = v := rfl
/-- What `setArg0` leaves unchanged. -/
@[simp] theorem setArg0_frame (v : Word) (s : State) :
    (setArg0 v s).cfg = s.cfg ∧ (setArg0 v s).buf = s.buf ∧ (setArg0 v s).bufLen = s.bufLen ∧
    (setArg0 v s).status = s.status ∧ (setArg0 v s).arg1 = s.arg1 ∧ (setArg0 v s).winStart = s.winStart ∧
    (setArg0 v s).winLen = s.winLen ∧ (setArg0 v s).curOff = s.curOff ∧ (setArg0 v s).result = s.result ∧
    (setArg0 v s).scanPos = s.scanPos ∧ (setArg0 v s).candStart = s.candStart ∧ (setArg0 v s).candLen = s.candLen ∧
    (setArg0 v s).candSpan = s.candSpan ∧ (setArg0 v s).frInfo = s.frInfo ∧ (setArg0 v s).frErr = s.frErr ∧
    (setArg0 v s).recCount = s.recCount ∧ (setArg0 v s).cntRec = s.cntRec ∧ (setArg0 v s).cntSkip = s.cntSkip ∧
    (setArg0 v s).cntCfg = s.cntCfg ∧ (setArg0 v s).cntTrunc = s.cntTrunc ∧ (setArg0 v s).recVal = s.recVal ∧
    (setArg0 v s).hostQueue = s.hostQueue ∧ (setArg0 v s).replies = s.replies := by
  and_intros <;> rfl

/-! ### `setArg1` -/

@[simp] theorem setArg1_arg1 (v : Word) (s : State) : (setArg1 v s).arg1 = v := rfl
/-- What `setArg1` leaves unchanged. -/
@[simp] theorem setArg1_frame (v : Word) (s : State) :
    (setArg1 v s).cfg = s.cfg ∧ (setArg1 v s).buf = s.buf ∧ (setArg1 v s).bufLen = s.bufLen ∧
    (setArg1 v s).status = s.status ∧ (setArg1 v s).arg0 = s.arg0 ∧ (setArg1 v s).winStart = s.winStart ∧
    (setArg1 v s).winLen = s.winLen ∧ (setArg1 v s).curOff = s.curOff ∧ (setArg1 v s).result = s.result ∧
    (setArg1 v s).scanPos = s.scanPos ∧ (setArg1 v s).candStart = s.candStart ∧ (setArg1 v s).candLen = s.candLen ∧
    (setArg1 v s).candSpan = s.candSpan ∧ (setArg1 v s).frInfo = s.frInfo ∧ (setArg1 v s).frErr = s.frErr ∧
    (setArg1 v s).recCount = s.recCount ∧ (setArg1 v s).cntRec = s.cntRec ∧ (setArg1 v s).cntSkip = s.cntSkip ∧
    (setArg1 v s).cntCfg = s.cntCfg ∧ (setArg1 v s).cntTrunc = s.cntTrunc ∧ (setArg1 v s).recVal = s.recVal ∧
    (setArg1 v s).hostQueue = s.hostQueue ∧ (setArg1 v s).replies = s.replies := by
  and_intros <;> rfl

/-! ### `loadBuffer` -/

@[simp] theorem loadBuffer_buf (bs : List Byte) (s : State) : (loadBuffer bs s).buf = Memory.ofBytes bs := rfl
@[simp] theorem loadBuffer_bufLen (bs : List Byte) (s : State) : (loadBuffer bs s).bufLen = BitVec.ofNat 32 bs.length := rfl
@[simp] theorem loadBuffer_curValid (bs : List Byte) (s : State) : (loadBuffer bs s).status.curValid = false := rfl
@[simp] theorem loadBuffer_scanActive (bs : List Byte) (s : State) : (loadBuffer bs s).status.scanActive = false := rfl
@[simp] theorem loadBuffer_scanDone (bs : List Byte) (s : State) : (loadBuffer bs s).status.scanDone = false := rfl
@[simp] theorem loadBuffer_candValid (bs : List Byte) (s : State) : (loadBuffer bs s).status.candValid = false := rfl
/-- What `loadBuffer` leaves unchanged. -/
@[simp] theorem loadBuffer_frame (bs : List Byte) (s : State) :
    (loadBuffer bs s).cfg = s.cfg ∧ (loadBuffer bs s).arg0 = s.arg0 ∧ (loadBuffer bs s).arg1 = s.arg1 ∧
    (loadBuffer bs s).winStart = s.winStart ∧ (loadBuffer bs s).winLen = s.winLen ∧
    (loadBuffer bs s).curOff = s.curOff ∧ (loadBuffer bs s).result = s.result ∧
    (loadBuffer bs s).scanPos = s.scanPos ∧ (loadBuffer bs s).candStart = s.candStart ∧
    (loadBuffer bs s).candLen = s.candLen ∧ (loadBuffer bs s).candSpan = s.candSpan ∧
    (loadBuffer bs s).frInfo = s.frInfo ∧ (loadBuffer bs s).frErr = s.frErr ∧
    (loadBuffer bs s).recCount = s.recCount ∧ (loadBuffer bs s).cntRec = s.cntRec ∧
    (loadBuffer bs s).cntSkip = s.cntSkip ∧ (loadBuffer bs s).cntCfg = s.cntCfg ∧
    (loadBuffer bs s).cntTrunc = s.cntTrunc ∧ (loadBuffer bs s).recVal = s.recVal ∧
    (loadBuffer bs s).hostQueue = s.hostQueue ∧ (loadBuffer bs s).replies = s.replies ∧
    (loadBuffer bs s).status.err = s.status.err ∧ (loadBuffer bs s).status.errSticky = s.status.errSticky ∧
    (loadBuffer bs s).status.resSigned = s.status.resSigned := by
  and_intros <;> rfl

/-! ### `setQueue` -/

@[simp] theorem setQueue_hostQueue (q : List HostAction) (s : State) : (setQueue q s).hostQueue = q := rfl
/-- What `setQueue` leaves unchanged. -/
@[simp] theorem setQueue_frame (q : List HostAction) (s : State) :
    (setQueue q s).cfg = s.cfg ∧ (setQueue q s).buf = s.buf ∧ (setQueue q s).bufLen = s.bufLen ∧
    (setQueue q s).status = s.status ∧ (setQueue q s).arg0 = s.arg0 ∧ (setQueue q s).arg1 = s.arg1 ∧
    (setQueue q s).winStart = s.winStart ∧ (setQueue q s).winLen = s.winLen ∧ (setQueue q s).curOff = s.curOff ∧
    (setQueue q s).result = s.result ∧ (setQueue q s).scanPos = s.scanPos ∧ (setQueue q s).candStart = s.candStart ∧
    (setQueue q s).candLen = s.candLen ∧ (setQueue q s).candSpan = s.candSpan ∧ (setQueue q s).frInfo = s.frInfo ∧
    (setQueue q s).frErr = s.frErr ∧ (setQueue q s).recCount = s.recCount ∧ (setQueue q s).cntRec = s.cntRec ∧
    (setQueue q s).cntSkip = s.cntSkip ∧ (setQueue q s).cntCfg = s.cntCfg ∧ (setQueue q s).cntTrunc = s.cntTrunc ∧
    (setQueue q s).recVal = s.recVal ∧ (setQueue q s).replies = s.replies := by
  and_intros <;> rfl

/-! ### `pushReply` -/

@[simp] theorem pushReply_replies (v : Word) (s : State) : (pushReply v s).replies = s.replies ++ [v] := rfl
/-- What `pushReply` leaves unchanged. -/
@[simp] theorem pushReply_frame (v : Word) (s : State) :
    (pushReply v s).cfg = s.cfg ∧ (pushReply v s).buf = s.buf ∧ (pushReply v s).bufLen = s.bufLen ∧
    (pushReply v s).status = s.status ∧ (pushReply v s).arg0 = s.arg0 ∧ (pushReply v s).arg1 = s.arg1 ∧
    (pushReply v s).winStart = s.winStart ∧ (pushReply v s).winLen = s.winLen ∧ (pushReply v s).curOff = s.curOff ∧
    (pushReply v s).result = s.result ∧ (pushReply v s).scanPos = s.scanPos ∧
    (pushReply v s).candStart = s.candStart ∧ (pushReply v s).candLen = s.candLen ∧
    (pushReply v s).candSpan = s.candSpan ∧ (pushReply v s).frInfo = s.frInfo ∧ (pushReply v s).frErr = s.frErr ∧
    (pushReply v s).recCount = s.recCount ∧ (pushReply v s).cntRec = s.cntRec ∧ (pushReply v s).cntSkip = s.cntSkip ∧
    (pushReply v s).cntCfg = s.cntCfg ∧ (pushReply v s).cntTrunc = s.cntTrunc ∧ (pushReply v s).recVal = s.recVal ∧
    (pushReply v s).hostQueue = s.hostQueue := by
  and_intros <;> rfl

/-! ### `countOutcome` -/

@[simp] theorem countOutcome_cntRec (o : FrameOutcome) (s : State) :
    (countOutcome o s).cntRec = if o = .record then s.cntRec + 1 else s.cntRec := by
  cases o <;> rfl
@[simp] theorem countOutcome_cntSkip (o : FrameOutcome) (s : State) :
    (countOutcome o s).cntSkip = if o = .skip then s.cntSkip + 1 else s.cntSkip := by
  cases o <;> rfl
@[simp] theorem countOutcome_cntCfg (o : FrameOutcome) (s : State) :
    (countOutcome o s).cntCfg = if o = .configError then s.cntCfg + 1 else s.cntCfg := by
  cases o <;> rfl
@[simp] theorem countOutcome_cntTrunc (o : FrameOutcome) (s : State) :
    (countOutcome o s).cntTrunc = if o = .truncated then s.cntTrunc + 1 else s.cntTrunc := by
  cases o <;> rfl
/-- What `countOutcome` leaves unchanged. -/
@[simp] theorem countOutcome_frame (o : FrameOutcome) (s : State) :
    (countOutcome o s).cfg = s.cfg ∧ (countOutcome o s).buf = s.buf ∧ (countOutcome o s).bufLen = s.bufLen ∧
    (countOutcome o s).status = s.status ∧ (countOutcome o s).arg0 = s.arg0 ∧ (countOutcome o s).arg1 = s.arg1 ∧
    (countOutcome o s).winStart = s.winStart ∧ (countOutcome o s).winLen = s.winLen ∧
    (countOutcome o s).curOff = s.curOff ∧ (countOutcome o s).result = s.result ∧
    (countOutcome o s).scanPos = s.scanPos ∧ (countOutcome o s).candStart = s.candStart ∧
    (countOutcome o s).candLen = s.candLen ∧ (countOutcome o s).candSpan = s.candSpan ∧
    (countOutcome o s).frInfo = s.frInfo ∧ (countOutcome o s).frErr = s.frErr ∧
    (countOutcome o s).recCount = s.recCount ∧ (countOutcome o s).recVal = s.recVal ∧
    (countOutcome o s).hostQueue = s.hostQueue ∧ (countOutcome o s).replies = s.replies := by
  cases o <;> (and_intros <;> rfl)

/-! ### `finishFrame` -/

@[simp] theorem finishFrame_cntRec (o : FrameOutcome) (s : State) :
    (finishFrame o s).cntRec = if o = .record then s.cntRec + 1 else s.cntRec := by
  cases o <;> rfl
@[simp] theorem finishFrame_cntSkip (o : FrameOutcome) (s : State) :
    (finishFrame o s).cntSkip = if o = .skip then s.cntSkip + 1 else s.cntSkip := by
  cases o <;> rfl
@[simp] theorem finishFrame_cntCfg (o : FrameOutcome) (s : State) :
    (finishFrame o s).cntCfg = if o = .configError then s.cntCfg + 1 else s.cntCfg := by
  cases o <;> rfl
@[simp] theorem finishFrame_cntTrunc (o : FrameOutcome) (s : State) :
    (finishFrame o s).cntTrunc = if o = .truncated then s.cntTrunc + 1 else s.cntTrunc := by
  cases o <;> rfl
@[simp] theorem finishFrame_frInfo (o : FrameOutcome) (s : State) :
    (finishFrame o s).frInfo = { s.frInfo with outcome := some o } := by
  cases o <;> rfl
@[simp] theorem finishFrame_err (o : FrameOutcome) (s : State) : (finishFrame o s).status.err = none := rfl
@[simp] theorem finishFrame_curValid (o : FrameOutcome) (s : State) : (finishFrame o s).status.curValid = false := rfl
/-- What `finishFrame` leaves unchanged. -/
@[simp] theorem finishFrame_frame (o : FrameOutcome) (s : State) :
    (finishFrame o s).cfg = s.cfg ∧ (finishFrame o s).buf = s.buf ∧ (finishFrame o s).bufLen = s.bufLen ∧
    (finishFrame o s).arg0 = s.arg0 ∧ (finishFrame o s).arg1 = s.arg1 ∧ (finishFrame o s).winStart = s.winStart ∧
    (finishFrame o s).winLen = s.winLen ∧ (finishFrame o s).curOff = s.curOff ∧ (finishFrame o s).result = s.result ∧
    (finishFrame o s).scanPos = s.scanPos ∧ (finishFrame o s).candStart = s.candStart ∧
    (finishFrame o s).candLen = s.candLen ∧ (finishFrame o s).candSpan = s.candSpan ∧
    (finishFrame o s).frErr = s.frErr ∧ (finishFrame o s).recCount = s.recCount ∧
    (finishFrame o s).recVal = s.recVal ∧ (finishFrame o s).hostQueue = s.hostQueue ∧
    (finishFrame o s).replies = s.replies ∧ (finishFrame o s).status.errSticky = s.status.errSticky ∧
    (finishFrame o s).status.scanActive = s.status.scanActive ∧
    (finishFrame o s).status.scanDone = s.status.scanDone ∧ (finishFrame o s).status.candValid = s.status.candValid ∧
    (finishFrame o s).status.resSigned = s.status.resSigned := by
  cases o <;> (and_intros <;> rfl)

end Sys2Proof.Machine
end

