-- ==== Sys2Proof/Laws/Decoder.lean ====
section
/-! SUPPORT. What a decode can do (41_decoder.md R140 to R156): its runs of reads, its frame, and its outcomes. -/

namespace Sys2Proof.Machine

/-! ## Read lists (41_decoder.md R145) -/

/-- Indexing keeps the number of descriptors. -/
theorem indexFrom_length (l : DescList) (i : Nat) (ds : List Descriptor) : (indexFrom l i ds).length = ds.length := by
  induction ds generalizing i with
  | nil => rfl
  | cons d ds ih => simp [indexFrom, ih]

/-- The `k`-th element of an indexed list has the `k`-th descriptor and the index `i + k`. -/
theorem indexFrom_getElem? (l : DescList) (i k : Nat) (ds : List Descriptor) :
    (indexFrom l i ds)[k]? = ds[k]?.map fun d => { list := l, idx := i + k, desc := d } := by
  induction ds generalizing i k with
  | nil => rfl
  | cons d ds ih =>
    cases k with
    | zero => rfl
    | succ k => simp [indexFrom, ih]; congr 1; funext d; congr 1; omega

/-- Indexing keeps the descriptors and their order. -/
theorem indexFrom_desc (l : DescList) (i : Nat) (ds : List Descriptor) : (indexFrom l i ds).map (fun it => it.desc) = ds := by
  induction ds generalizing i with
  | nil => rfl
  | cons d ds ih => simp [indexFrom, ih]

/-! ## Widths and offsets -/

theorem totalWidth_append (fs gs : List FieldType) : totalWidth (fs ++ gs) = totalWidth fs + totalWidth gs := by
  induction fs with
  | nil => simp [totalWidth]
  | cons f fs ih => simp [totalWidth, ih, Nat.add_assoc]

theorem fieldOffset_zero (fs : List FieldType) : fieldOffset fs 0 = 0 := rfl

theorem fieldOffset_cons (f : FieldType) (fs : List FieldType) (k : Nat) :
    fieldOffset (f :: fs) (k + 1) = f.width + fieldOffset fs k := rfl

theorem fieldOffset_length (fs : List FieldType) : fieldOffset fs fs.length = totalWidth fs := by
  simp [fieldOffset]

theorem fieldOffset_mono (fs : List FieldType) {j k : Nat} (h : j ≤ k) : fieldOffset fs j ≤ fieldOffset fs k := by
  induction fs generalizing j k with
  | nil => simp [fieldOffset, totalWidth]
  | cons f fs ih =>
    cases j with
    | zero => simp [fieldOffset_zero]
    | succ j =>
      cases k with
      | zero => omega
      | succ k =>
        rw [fieldOffset_cons, fieldOffset_cons]
        exact Nat.add_le_add_left (ih (by omega)) _

theorem fieldOffset_le_totalWidth (fs : List FieldType) (k : Nat) : fieldOffset fs k ≤ totalWidth fs := by
  rw [← fieldOffset_length]
  rcases Nat.le_total k fs.length with h | h
  · exact fieldOffset_mono fs h
  · rw [fieldOffset, List.take_of_length_le h, fieldOffset_length]

/-- A code names a width of at least one bit (30_encoding.md R89). -/
theorem one_le_codeWidth (c : BitVec 8) : 1 ≤ codeWidth c := Nat.succ_pos _

theorem one_le_width_itemTypes (its : List ReadItem) : ∀ f ∈ its.map itemType, 1 ≤ f.width := by
  intro f hf
  obtain ⟨it, -, rfl⟩ := List.mem_map.mp hf
  exact one_le_codeWidth _

/-! ## Runs of reads -/

/-- `t` is `s` but for the registers a run of reads writes (R142). -/
def OnlyReads (s t : State) : Prop :=
  t = { s with curOff := t.curOff, recVal := t.recVal, recCount := t.recCount }

theorem OnlyReads.refl (s : State) : OnlyReads s s := rfl

theorem OnlyReads.trans {s t u : State} (h : OnlyReads s t) (h' : OnlyReads t u) : OnlyReads s u := by
  unfold OnlyReads at *
  rw [h'.trans (by rw [h])]

theorem onlyReads_emitValue (f : FieldType) (u : Nat) (s : State) : OnlyReads s (emitValue f u s) := rfl

/-- However a run of reads ends, it wrote only `CUR_OFF`, the record slots and `REC_COUNT`. -/
theorem emitFields_onlyReads {fs : List FieldType} {s t : State}
    (h : emitFields fs s = .complete t ∨ emitFields fs s = .truncated t) : OnlyReads s t := by
  induction fs generalizing s with
  | nil =>
    simp only [emitFields, reduceCtorEq, or_false, FieldsEnd.complete.injEq] at h
    exact h ▸ OnlyReads.refl s
  | cons f fs ih =>
    simp only [emitFields] at h
    cases hr : readBits f.width s with
    | past =>
      simp only [hr, reduceCtorEq, false_or, FieldsEnd.truncated.injEq] at h
      exact h ▸ OnlyReads.refl s
    | absent a => simp [hr] at h
    | value u =>
      simp only [hr] at h
      exact (onlyReads_emitValue f u s).trans (ih h)

/-- `t` is the state after the reads of `fs`, all of which succeeded: each field's value stands in its slot (R142, R32). -/
structure Emitted (fs : List FieldType) (s t : State) : Prop where
  onlyReads : OnlyReads s t
  curOff : t.curOff.toNat = s.curOff.toNat + totalWidth fs
  recCount : t.recCount.toNat = s.recCount.toNat + fs.length
  length : t.recVal.length = s.recVal.length
  slots : ∀ k, k < fs.length →
    recSlot (s.recCount.toNat + k) t =
      fieldPattern (fs.getD k ⟨0, false⟩).signed (fs.getD k ⟨0, false⟩).width
        (extract s.buf s.winStart.toNat (s.curOff.toNat + fieldOffset fs k) (fs.getD k ⟨0, false⟩).width)
  others : ∀ k, (k < s.recCount.toNat ∨ s.recCount.toNat + fs.length ≤ k) → recSlot k t = recSlot k s

theorem Emitted.nil (s : State) : Emitted [] s s where
  onlyReads := OnlyReads.refl s
  curOff := rfl
  recCount := rfl
  length := rfl
  slots := fun k hk => absurd hk (Nat.not_lt_zero k)
  others := fun _ _ => rfl

theorem Emitted.cons {f : FieldType} {fs : List FieldType} {s t : State}
    (ho : s.curOff.toNat + f.width < 2 ^ 32) (hc : s.recCount.toNat + 1 < 2 ^ 32) (hl : s.recCount.toNat < s.recVal.length)
    (h : Emitted fs (emitValue f (extract s.buf s.winStart.toNat s.curOff.toNat f.width) s) t) :
    Emitted (f :: fs) s t := by
  obtain ⟨h1, h2, h3, h4, h5, h6⟩ := h
  simp only [emitValue_curOff, emitValue_recCount, BitVec.toNat_ofNat, Nat.mod_eq_of_lt ho, Nat.mod_eq_of_lt hc] at h2 h3 h5 h6
  refine ⟨(onlyReads_emitValue _ _ s).trans h1, ?_, ?_, ?_, ?_, ?_⟩
  · simp only [totalWidth]; omega
  · simp only [List.length_cons]; omega
  · simpa using h4
  · intro k hk
    cases k with
    | zero =>
      rw [Nat.add_zero, h6 _ (.inl (Nat.lt_succ_self _))]
      simp [recSlot, hl, fieldOffset_zero]
    | succ k =>
      have := h5 k (by simpa using hk)
      simp only [emitValue_frame, Nat.add_assoc] at this
      rw [show s.recCount.toNat + (k + 1) = s.recCount.toNat + (1 + k) by omega, this]
      simp [fieldOffset_cons]
  · intro k hk
    rw [h6 k (by simp only [List.length_cons] at hk; omega)]
    simp only [recSlot, emitValue_recVal, List.getD_eq_getElem?_getD]
    rw [List.getElem?_set_ne (by simp only [List.length_cons] at hk; omega)]

/-- How a run of reads ends in a window that lies in the buffer: every read succeeds exactly if all the fields fit, and
otherwise it stops at the first field that does not (R142, R143, R149). -/
theorem emitFields_spec {fs : List FieldType} {s : State} (hw : ∀ f ∈ fs, 1 ≤ f.width)
    (hwin : s.winStart.toNat + s.winLen.toNat ≤ s.bufLen.toNat) (hbig : 8 * s.winLen.toNat < 2 ^ 32)
    (hcur : s.curOff.toNat ≤ 8 * s.winLen.toNat)
    (hslots : s.recCount.toNat + fs.length ≤ s.recVal.length) (hrec : s.recVal.length < 2 ^ 32) :
    (s.curOff.toNat + totalWidth fs ≤ 8 * s.winLen.toNat ∧ ∃ t, emitFields fs s = .complete t ∧ Emitted fs s t) ∨
    (∃ j t, j < fs.length ∧ emitFields fs s = .truncated t ∧ Emitted (fs.take j) s t ∧
      s.curOff.toNat + fieldOffset fs j ≤ 8 * s.winLen.toNat ∧
      8 * s.winLen.toNat < s.curOff.toNat + fieldOffset fs (j + 1)) := by
  induction fs generalizing s with
  | nil => exact .inl ⟨by simpa [totalWidth] using hcur, s, rfl, Emitted.nil s⟩
  | cons f fs ih =>
    have hf : 1 ≤ f.width := hw f (List.mem_cons_self ..)
    rw [List.length_cons] at hslots
    by_cases hfit : s.curOff.toNat + f.width ≤ 8 * s.winLen.toNat
    · have ho : s.curOff.toNat + f.width < 2 ^ 32 := by omega
      have hc : s.recCount.toNat + 1 < 2 ^ 32 := by omega
      have hstep : emitFields (f :: fs) s =
          emitFields fs (emitValue f (extract s.buf s.winStart.toNat s.curOff.toNat f.width) s) := by
        rw [emitFields, readBits_value hf hwin hfit]
      have hcur' : (emitValue f (extract s.buf s.winStart.toNat s.curOff.toNat f.width) s).curOff.toNat
          = s.curOff.toNat + f.width := by
        rw [emitValue_curOff, BitVec.toNat_ofNat, Nat.mod_eq_of_lt ho]
      have hcnt' : (emitValue f (extract s.buf s.winStart.toNat s.curOff.toNat f.width) s).recCount.toNat
          = s.recCount.toNat + 1 := by
        rw [emitValue_recCount, BitVec.toNat_ofNat, Nat.mod_eq_of_lt hc]
      rw [hstep]
      rcases ih (s := emitValue f (extract s.buf s.winStart.toNat s.curOff.toNat f.width) s)
          (fun g hg => hw g (List.mem_cons_of_mem _ hg)) hwin hbig
          (by rw [hcur']; exact hfit) (by rw [hcnt', emitValue_recVal, List.length_set]; omega)
          (by rw [emitValue_recVal, List.length_set]; exact hrec) with ⟨h1, t, h2, h3⟩ | ⟨j, t, h1, h2, h3, h4, h5⟩
      · rw [hcur'] at h1
        simp only [emitValue_frame] at h1
        exact .inl ⟨by simp only [totalWidth]; omega, t, h2, h3.cons ho hc (by omega)⟩
      · rw [hcur'] at h4 h5
        simp only [emitValue_frame] at h4 h5
        refine .inr ⟨j + 1, t, by simpa using h1, h2, ?_, ?_, ?_⟩
        · rw [List.take_succ_cons]
          exact h3.cons ho hc (by omega)
        · rw [fieldOffset_cons]; omega
        · rw [fieldOffset_cons]; omega
    · refine .inr ⟨0, s, Nat.succ_pos _, ?_, Emitted.nil s, by simpa [fieldOffset_zero] using hcur, ?_⟩
      · rw [emitFields, readBits_past (by omega)]
      · rw [fieldOffset_cons, fieldOffset_zero]; omega

/-! ## The decode -/

/-- The state a decode ends in before `finish`: `s` but for the registers a decode writes (R141 to R149). -/
def OnlyDecodes (s u : State) : Prop :=
  u = { s with
    winStart := u.winStart, winLen := u.winLen, curOff := u.curOff, recVal := u.recVal, recCount := u.recCount,
    frInfo := u.frInfo, frErr := u.frErr, status := { s.status with curValid := true } }

/-- How a decode that answers a next state ends: by `finish` with one outcome, in a state that differs from the one
before only in the cursor, the record and the frame registers (R150). -/
theorem decodeWindow_next {ws wl : Word} {s t : State} (h : decodeWindow ws wl s = .next t) :
    ∃ o u, t = finishFrame o u ∧ OnlyDecodes s u ∧ u.winStart = ws ∧ u.winLen = wl := by
  have key : ∀ {fs : List FieldType} {v u : State}, (emitFields fs v = .complete u ∨ emitFields fs v = .truncated u) →
      OnlyDecodes s v → v.winStart = ws → v.winLen = wl → OnlyDecodes s u ∧ u.winStart = ws ∧ u.winLen = wl := by
    intro fs v u hu hv h1 h2
    have hr : OnlyReads v u := emitFields_onlyReads hu
    unfold OnlyReads at hr
    unfold OnlyDecodes at hv ⊢
    refine ⟨?_, by rw [hr]; exact h1, by rw [hr]; exact h2⟩
    rw [hr, hv]
  have hopen : OnlyDecodes s (clearFrame (openCursor ws wl s)) := rfl
  simp only [decodeWindow] at h
  cases h1 : emitFields fixedFields (clearFrame (openCursor ws wl s)) with
  | absent a => simp [h1] at h
  | truncated u =>
    simp only [h1, Host.Outcome.next.injEq] at h
    obtain ⟨h2, h3, h4⟩ := key (.inr h1) hopen rfl rfl
    exact ⟨.truncated, u, h.symm, h2, h3, h4⟩
  | complete u =>
    obtain ⟨h2, h3, h4⟩ := key (.inl h1) hopen rfl rfl
    simp only [h1] at h
    have hmsg : OnlyDecodes s (setMessage (messageId u) u) := by
      unfold OnlyDecodes at h2 ⊢
      rw [h2]
      rfl
    simp only [decodeMessage] at h
    split at h
    · rw [Host.Outcome.next.injEq] at h
      exact ⟨.skip, _, h.symm, hmsg, h3, h4⟩
    · next e _ =>
      have herr : ∀ x, OnlyDecodes s (setFrErr x (setMessage (messageId u) u)) := by
        intro x
        unfold OnlyDecodes at hmsg ⊢
        rw [hmsg]
        rfl
      simp only [decodeEntry] at h
      split at h
      · rw [Host.Outcome.next.injEq] at h
        exact ⟨.configError, _, h.symm, herr _, h3, h4⟩
      · split at h
        · rw [Host.Outcome.next.injEq] at h
          exact ⟨.configError, _, h.symm, herr _, h3, h4⟩
        · simp only [decodeFields] at h
          split at h
          next v hv =>
            rw [Host.Outcome.next.injEq] at h
            obtain ⟨h5, h6, h7⟩ := key (.inl hv) hmsg h3 h4
            exact ⟨.record, v, h.symm, h5, h6, h7⟩
          next v hv =>
            rw [Host.Outcome.next.injEq] at h
            obtain ⟨h5, h6, h7⟩ := key (.inr hv) hmsg h3 h4
            exact ⟨.truncated, v, h.symm, h5, h6, h7⟩
          next a hv => exact absurd h (by simp)

/-- What a decode leaves unchanged and how it leaves the cursor, whatever its outcome (R142, R150, 10_state.md R34). -/
theorem decodeWindow_frame {ws wl : Word} {s t : State} (h : decodeWindow ws wl s = .next t) :
    t.cfg = s.cfg ∧ t.buf = s.buf ∧ t.bufLen = s.bufLen ∧ t.arg0 = s.arg0 ∧ t.arg1 = s.arg1 ∧ t.result = s.result ∧
      t.scanPos = s.scanPos ∧ t.candStart = s.candStart ∧ t.candLen = s.candLen ∧ t.candSpan = s.candSpan ∧
      t.hostQueue = s.hostQueue ∧ t.replies = s.replies ∧ t.status.errSticky = s.status.errSticky ∧
      t.status.scanActive = s.status.scanActive ∧ t.status.scanDone = s.status.scanDone ∧
      t.status.candValid = s.status.candValid ∧ t.status.resSigned = s.status.resSigned ∧
      t.status.curValid = false ∧ t.status.err = none ∧ t.winStart = ws ∧ t.winLen = wl := by
  obtain ⟨o, u, rfl, hu, h1, h2⟩ := decodeWindow_next h
  unfold OnlyDecodes at hu
  simp only [finishFrame_frame, finishFrame_err, finishFrame_curValid, h1, h2, and_true]
  rw [hu]
  simp

/-- A decode increments the counter of its outcome, and no other (10_state.md R36). -/
theorem decodeWindow_counts {ws wl : Word} {s t : State} (h : decodeWindow ws wl s = .next t) :
    ∃ o, t.frInfo.outcome = some o ∧ t.cntRec = (if o = .record then s.cntRec + 1 else s.cntRec) ∧
      t.cntSkip = (if o = .skip then s.cntSkip + 1 else s.cntSkip) ∧
      t.cntCfg = (if o = .configError then s.cntCfg + 1 else s.cntCfg) ∧
      t.cntTrunc = (if o = .truncated then s.cntTrunc + 1 else s.cntTrunc) := by
  obtain ⟨o, u, rfl, hu, -, -⟩ := decodeWindow_next h
  unfold OnlyDecodes at hu
  refine ⟨o, by simp, ?_⟩
  simp only [finishFrame_cntRec, finishFrame_cntSkip, finishFrame_cntCfg, finishFrame_cntTrunc]
  rw [hu]
  simp

/-- No element of a list is found invalid exactly if every code is valid (R148). -/
theorem firstInvalid_eq_none (its : List ReadItem) :
    firstInvalid its = none ↔ ∀ it ∈ its, codeValid it.desc.code = true := by
  induction its with
  | nil => simp [firstInvalid]
  | cons it its ih =>
    rw [firstInvalid]
    split <;> simp_all

/-- The element found is the first whose code is invalid (R148). -/
theorem firstInvalid_append {front back : List ReadItem} {it : ReadItem}
    (hf : ∀ x ∈ front, codeValid x.desc.code = true) (hi : codeValid it.desc.code = false) :
    firstInvalid (front ++ it :: back) = some it := by
  induction front with
  | nil => simp [firstInvalid, hi]
  | cons x front ih =>
    rw [List.cons_append, firstInvalid, if_pos (hf x (List.mem_cons_self ..))]
    exact ih fun y hy => hf y (List.mem_cons_of_mem _ hy)

end Sys2Proof.Machine
end

