-- ==== Sys2Proof/Laws/Scanner.lean ====
section
/-! SUPPORT. What the scanner's search finds (42_scanner.md R181, R190), and what `scan.next` can do. -/

namespace Sys2Proof.Machine

/-- A length field has ten bits (R182). -/
theorem frameLength_le (m : Memory) (i : Nat) : frameLength m i ≤ 1023 := Nat.and_le_right

/-- The match test, conjunct by conjunct (R181). -/
theorem frameMatch_iff (m : Memory) (n i : Nat) :
    frameMatch m n i = true ↔
      i + 2 < n ∧ m.get i = preamble ∧ m.get (i + 1) &&& reservedMask = 0 ∧ 0 < frameLength m i := by
  simp [frameMatch, and_assoc]

/-- The search finds an index exactly if it is the first of the range that matches. -/
theorem firstMatch_eq_some (m : Memory) (n fuel i j : Nat) :
    firstMatch m n fuel i = some j ↔
      i ≤ j ∧ j < i + fuel ∧ frameMatch m n j = true ∧ ∀ k, i ≤ k → k < j → frameMatch m n k = false := by
  induction fuel generalizing i with
  | zero => simp [firstMatch]; omega
  | succ fuel ih =>
    rw [firstMatch]
    split
    next h =>
      rw [Option.some.injEq]
      constructor
      · rintro rfl
        exact ⟨Nat.le_refl _, by omega, h, fun k h1 h2 => by omega⟩
      · rintro ⟨h1, -, -, h4⟩
        rcases Nat.lt_or_eq_of_le h1 with hlt | heq
        · rw [h4 i (Nat.le_refl i) hlt] at h
          exact absurd h (by decide)
        · exact heq
    next h =>
      rw [ih]
      have hf : frameMatch m n i = false := by simpa using h
      constructor
      · rintro ⟨h1, h2, h3, h4⟩
        refine ⟨by omega, by omega, h3, fun k hk1 hk2 => ?_⟩
        rcases Nat.lt_or_eq_of_le hk1 with hlt | heq
        · exact h4 k (by omega) hk2
        · exact heq ▸ hf
      · rintro ⟨h1, h2, h3, h4⟩
        have : i ≠ j := fun hij => h (hij ▸ h3)
        exact ⟨by omega, by omega, h3, fun k hk1 hk2 => h4 k (by omega) hk2⟩

/-- The search finds nothing exactly if no index of the range matches. -/
theorem firstMatch_eq_none (m : Memory) (n fuel i : Nat) :
    firstMatch m n fuel i = none ↔ ∀ k, i ≤ k → k < i + fuel → frameMatch m n k = false := by
  induction fuel generalizing i with
  | zero => simp [firstMatch]; omega
  | succ fuel ih =>
    rw [firstMatch]
    split
    next h =>
      simp only [reduceCtorEq, false_iff, not_forall]
      exact ⟨i, Nat.le_refl i, by omega, by simp [h]⟩
    next h =>
      rw [ih]
      have hf : frameMatch m n i = false := by simpa using h
      constructor
      · intro h1 k hk1 hk2
        rcases Nat.lt_or_eq_of_le hk1 with hlt | heq
        · exact h1 k (by omega) (by omega)
        · exact heq ▸ hf
      · exact fun h1 k hk1 hk2 => h1 k (by omega) (by omega)

/-- What holds of the candidate found (R181, R187). -/
theorem nextCandidate_eq_some {s : State} {i : Nat} (h : nextCandidate s = some i) :
    s.scanPos.toNat ≤ i ∧ i + 2 < s.bufLen.toNat ∧ frameMatch s.buf s.bufLen.toNat i = true ∧ 0 < frameLength s.buf i ∧
      ∀ k, s.scanPos.toNat ≤ k → k < i → frameMatch s.buf s.bufLen.toNat k = false := by
  rw [nextCandidate, firstMatch_eq_some] at h
  have := (frameMatch_iff _ _ _).1 h.2.2.1
  exact ⟨h.1, this.1, h.2.2.1, this.2.2.2, h.2.2.2⟩

/-- Where a scan resumes lies between the two readings of R184. -/
theorem resumeIndex_bounds (r : ScanResume) (i len : Nat) :
    i + len + 1 ≤ resumeIndex r i len ∧ resumeIndex r i len ≤ i + len + 6 := by
  cases r <;> simp [resumeIndex]

/-- What `scan.next` can do (R190): raise `NO_SCAN`, take the first candidate from `SCAN_POS` on, or end the scan. -/
theorem execScanNext_cases (s : State) :
    (s.status.scanActive = false ∧ execScanNext s = .next (raiseError .noScan s)) ∨
    (s.status.scanActive = true ∧ ∃ i, nextCandidate s = some i ∧
      execScanNext s = .next (completeCommand (takeCandidate i s))) ∨
    (s.status.scanActive = true ∧ nextCandidate s = none ∧
      execScanNext s = .next (completeCommand (endScan (max s.scanPos.toNat s.bufLen.toNat) s))) := by
  simp only [execScanNext]
  cases hs : s.status.scanActive with
  | false => exact .inl ⟨rfl, by simp⟩
  | true =>
    cases hn : nextCandidate s with
    | none => exact .inr (.inr ⟨rfl, rfl, by simp⟩)
    | some i => exact .inr (.inl ⟨rfl, i, rfl, by simp⟩)

end Sys2Proof.Machine
end

