-- ==== Sys2Proof/Laws/Exec.lean ====
section
/-! SUPPORT. Everything a command and a step can do: if it answers a next state, one of these cases holds. -/

namespace Sys2Proof.Machine

theorem next_inj {s t : State} :
    (Host.Outcome.next s : Host.Outcome State Fault Refusal) = .next t ↔ s = t := by
  constructor
  · exact fun h => by simpa using h
  · exact fun h => by rw [h]

theorem argWindowFits_iff (s : State) : argWindowFits s = true ↔ s.arg0.toNat + s.arg1.toNat ≤ s.bufLen.toNat := by
  simp [argWindowFits]

/-- The errors that a command raises with nothing else written, and when (60_exceptions.md R201, R203). -/
inductive Raises (s : State) : Instr → CmdError → Prop where
  | noCursor (i : Instr) (w : Nat) (hi : i = .rdU w ∨ i = .rdS w) (h : s.status.curValid = false) : Raises s i .noCursor
  | windowRange (i : Instr) (hi : i = .curSet ∨ i = .decWin) (h : s.bufLen.toNat < s.arg0.toNat + s.arg1.toNat) :
    Raises s i .windowRange
  | noScan (h : s.status.scanActive = false) : Raises s .scanNext .noScan
  | noCandidate (h : s.status.candValid = false) : Raises s .decCand .noCandidate

/-- How the command `i` goes from `s` to `t`. -/
inductive CommandEnds (s t : State) : Instr → Prop where
  /-- It raises an error and writes nothing else (R205). -/
  | raised (i : Instr) (e : CmdError) (cause : Raises s i e) (h : t = raiseError e s) : CommandEnds s t i
  | nop (h : t = completeCommand s) : CommandEnds s t .nop
  | opened (fits : s.arg0.toNat + s.arg1.toNat ≤ s.bufLen.toNat)
      (h : t = completeCommand (openCursor s.arg0 s.arg1 s)) : CommandEnds s t .curSet
  /-- A read in range (R118, R119). -/
  | read (i : Instr) (signed : Bool) (w : Nat) (v : Word) (hi : i = if signed then .rdS w else .rdU w)
      (valid : s.status.curValid = true) (range : s.curOff.toNat + w ≤ 8 * s.winLen.toNat)
      (h : t = completeCommand (advanceCursor w (setResult signed v s))) : CommandEnds s t i
  /-- A read out of range, which ends the cursor (R118, R119). -/
  | readPast (i : Instr) (w : Nat) (hi : i = .rdU w ∨ i = .rdS w) (valid : s.status.curValid = true)
      (range : 8 * s.winLen.toNat < s.curOff.toNat + w) (h : t = raiseError .outOfRange (closeCursor s)) : CommandEnds s t i
  | cleared (h : t = completeCommand (closeCursor s)) : CommandEnds s t .curClr
  | scanStarted (h : t = completeCommand (beginScan s)) : CommandEnds s t .scanStart
  | candidate (i : Nat) (active : s.status.scanActive = true) (found : nextCandidate s = some i)
      (h : t = completeCommand (takeCandidate i s)) : CommandEnds s t .scanNext
  | scanEnded (active : s.status.scanActive = true) (found : nextCandidate s = none)
      (h : t = completeCommand (endScan (max s.scanPos.toNat s.bufLen.toNat) s)) : CommandEnds s t .scanNext
  | decodedCandidate (valid : s.status.candValid = true) (inside : s.candStart.toNat ≤ s.bufLen.toNat)
      (h : decodeWindow s.candStart (BitVec.ofNat 32 (candidateWindow s)) s = .next t) : CommandEnds s t .decCand
  | decodedWindow (fits : s.arg0.toNat + s.arg1.toNat ≤ s.bufLen.toNat)
      (h : decodeWindow s.arg0 s.arg1 s = .next t) : CommandEnds s t .decWin

theorem readField_ends {signed : Bool} {w : Nat} {s t : State} (h : readField signed w s = .next t) :
    CommandEnds s t (if signed then .rdS w else .rdU w) := by
  simp only [readField] at h
  split at h
  next hc =>
    rcases readBits_cases w s with ⟨h1, h2⟩ | ⟨a, h1, -⟩ | ⟨h1, h2⟩ <;> simp only [h1] at h
    · exact .readPast _ w (by cases signed <;> simp) hc h2 (next_inj.1 h).symm
    · simp at h
    · exact .read _ signed w _ rfl hc h2 (next_inj.1 h).symm
  next hc => exact .raised _ _ (.noCursor _ w (by cases signed <;> simp) (by simpa using hc)) (next_inj.1 h).symm

/-- Everything a command can do when it answers a next state. -/
theorem exec_ends {i : Instr} {s t : State} (h : exec i s = .next t) : CommandEnds s t i := by
  cases i with
  | nop => exact .nop (next_inj.1 h).symm
  | curSet =>
    simp only [exec, execCurSet] at h
    split at h
    next hf => exact .opened ((argWindowFits_iff s).1 hf) (next_inj.1 h).symm
    next hf =>
      exact .raised _ _ (.windowRange _ (.inl rfl) (Nat.lt_of_not_le fun h => hf ((argWindowFits_iff s).2 h)))
        (next_inj.1 h).symm
  | rdU w => exact readField_ends (signed := false) h
  | rdS w => exact readField_ends (signed := true) h
  | curClr => exact .cleared (next_inj.1 h).symm
  | scanStart => exact .scanStarted (next_inj.1 h).symm
  | scanNext =>
    rcases execScanNext_cases s with ⟨h0, h1⟩ | ⟨h0, j, h1, h2⟩ | ⟨h0, h1, h2⟩
    · exact .raised _ _ (.noScan h0) (next_inj.1 (h1.symm.trans h)).symm
    · exact .candidate j h0 h1 (next_inj.1 (h2.symm.trans h)).symm
    · exact .scanEnded h0 h1 (next_inj.1 (h2.symm.trans h)).symm
  | decCand =>
    simp only [exec, execDecCand] at h
    split at h
    next hc =>
      split at h
      · simp at h
      next hb => exact .decodedCandidate hc (by omega) h
    next hc => exact .raised _ _ (.noCandidate (by simpa using hc)) (next_inj.1 h).symm
  | decWin =>
    simp only [exec, execDecWin] at h
    split at h
    next hf => exact .decodedWindow ((argWindowFits_iff s).1 hf) h
    next hf =>
      exact .raised _ _ (.windowRange _ (.inr rfl) (Nat.lt_of_not_le fun h => hf ((argWindowFits_iff s).2 h)))
        (next_inj.1 h).symm

/-- How a host action goes from `s` to `t` (10_state.md R40). -/
inductive ActEnds (s t : State) : HostAction → Prop where
  | illegal (v : Word) (r : DecodeError) (rejected : decode v = .error r) (h : t = raiseError .illegalCmd s) :
    ActEnds s t (.write cmdIndex v)
  | command (v : Word) (i : Instr) (decoded : decode v = .ok i) (ran : exec i s = .next t) :
    ActEnds s t (.write cmdIndex v)
  | operand0 (v : Word) (h : t = setArg0 v s) : ActEnds s t (.write 0x003 v)
  | operand1 (v : Word) (h : t = setArg1 v s) : ActEnds s t (.write 0x004 v)
  | ignored (idx : BitVec 12) (v : Word) (other : idx ≠ cmdIndex ∧ idx ≠ 0x003 ∧ idx ≠ 0x004) (h : t = s) :
    ActEnds s t (.write idx v)
  | replied (idx : BitVec 12) (h : t = pushReply (hostRead idx s) s) : ActEnds s t (.read idx)
  | loaded (bytes : List Byte) (fits : bytes.length ≤ s.cfg.bufBytesMax) (h : t = loadBuffer bytes s) :
    ActEnds s t (.load bytes)

theorem registerAt_eq_cmd {n k : Nat} : registerAt n k = .cmd ↔ k = 0x000 := by
  unfold registerAt
  split <;> simp_all
  split <;> simp

theorem registerAt_eq_arg0 {n k : Nat} : registerAt n k = .arg0 ↔ k = 0x003 := by
  unfold registerAt
  split <;> simp_all
  split <;> simp

theorem registerAt_eq_arg1 {n k : Nat} : registerAt n k = .arg1 ↔ k = 0x004 := by
  unfold registerAt
  split <;> simp_all
  split <;> simp

/-- From index 0x015 on there are only record slots and reserved indices (10_state.md R24). -/
theorem registerAt_of_ge {n k : Nat} (h : 0x015 ≤ k) :
    registerAt n k = if 0x100 ≤ k ∧ k < 0x100 + n then .recVal (k - 0x100) else .reserved k := by
  obtain ⟨j, rfl⟩ : ∃ j, k = j + 0x015 := ⟨k - 0x015, by omega⟩
  rfl

theorem registerAt_reserved {n k : Nat} (h : 0x015 ≤ k ∧ k ≤ 0x0FF ∨ 0x100 + n ≤ k) : registerAt n k = .reserved k := by
  rw [registerAt_of_ge (by omega), if_neg (by omega)]

theorem registerAt_recVal {n k : Nat} (h : k < n) : registerAt n (0x100 + k) = .recVal k := by
  rw [registerAt_of_ge (by omega), if_pos (by omega), Nat.add_sub_cancel_left]

theorem hostRead_setQueue (idx : BitVec 12) (q : List HostAction) (s : State) :
    hostRead idx (setQueue q s) = hostRead idx s := by
  cases h : registerAt s.cfg.recMax idx.toNat <;> simp [hostRead, h, readRegister, recSlot]

/-- Everything a host action can do when it answers a next state. -/
theorem hostAct_ends {a : HostAction} {s t : State} (h : hostAct a s = .next t) : ActEnds s t a := by
  cases a with
  | write idx v =>
    simp only [hostAct, hostWrite] at h
    split at h
    next hr =>
      have hidx : idx = cmdIndex := BitVec.eq_of_toNat_eq (registerAt_eq_cmd.1 hr)
      subst hidx
      simp only [issueCommand] at h
      split at h
      next i hd => exact .command v i hd h
      next r hd => exact .illegal v r hd (next_inj.1 h).symm
    next hr =>
      have hidx : idx = 0x003 := BitVec.eq_of_toNat_eq (registerAt_eq_arg0.1 hr)
      subst hidx
      exact .operand0 v (next_inj.1 h).symm
    next hr =>
      have hidx : idx = 0x004 := BitVec.eq_of_toNat_eq (registerAt_eq_arg1.1 hr)
      subst hidx
      exact .operand1 v (next_inj.1 h).symm
    next h1 h2 h3 =>
      refine .ignored idx v ⟨fun h => h1 ?_, fun h => h2 ?_, fun h => h3 ?_⟩ (next_inj.1 h).symm
      · rw [registerAt_eq_cmd, h]; rfl
      · rw [registerAt_eq_arg0, h]; rfl
      · rw [registerAt_eq_arg1, h]; rfl
  | read idx => exact .replied idx (next_inj.1 h).symm
  | load bytes =>
    simp only [hostAct, hostLoad] at h
    split at h
    · simp at h
    · exact .loaded bytes (by omega) (next_inj.1 h).symm

/-- Everything a step can do when it answers a next state: nothing, or the host's next action. -/
theorem step_ends {s t : State} (h : step s = .next t) :
    (s.hostQueue = [] ∧ t = s) ∨ ∃ a q, s.hostQueue = a :: q ∧ ActEnds (setQueue q s) t a := by
  unfold step at h
  split at h
  next hq => exact .inl ⟨hq, (next_inj.1 h).symm⟩
  next a q hq => exact .inr ⟨a, q, hq, hostAct_ends h⟩

end Sys2Proof.Machine
end

