-- ==== Sys2Proof/Laws/Outcomes.lean ====
section
/-! SUPPORT. How a decode ends in a state with legal registers: one outcome for each case of 41_decoder.md R154, with the slots it
writes (R142, R149). -/

namespace Sys2Proof.Machine

/-! ## Slots -/

/-- After the reads of `fs` from the start of a window, each slot holds its field. -/
theorem Emitted.fieldSlot {fs : List FieldType} {s t : State} (h : Emitted fs s t) (hc : s.recCount.toNat = 0)
    (ho : s.curOff.toNat = 0) (k : Nat) (hk : k < fs.length) :
    recSlot k t = Machine.fieldSlot s.buf s.winStart.toNat fs k := by
  have := h.slots k hk
  rwa [hc, ho, Nat.zero_add, Nat.zero_add] at this

theorem getD_append_left {fs gs : List FieldType} {k : Nat} (hk : k < fs.length) (d : FieldType) :
    (fs ++ gs).getD k d = fs.getD k d := by
  simp [List.getD_eq_getElem?_getD, List.getElem?_append_left hk]

theorem fieldOffset_append_left {fs gs : List FieldType} {k : Nat} (hk : k ≤ fs.length) :
    fieldOffset (fs ++ gs) k = fieldOffset fs k := by
  simp [fieldOffset, List.take_append_of_le_length hk]

theorem fieldOffset_append_right (fs gs : List FieldType) (k : Nat) :
    fieldOffset (fs ++ gs) (fs.length + k) = totalWidth fs + fieldOffset gs k := by
  simp [fieldOffset, List.take_append, totalWidth_append, List.take_of_length_le]

/-- The slots of a longer list begin with those of its first part. -/
theorem fieldSlot_append_left {fs gs : List FieldType} {k : Nat} (hk : k < fs.length) (m : Memory) (ws : Nat) :
    fieldSlot m ws (fs ++ gs) k = fieldSlot m ws fs k := by
  simp only [fieldSlot, getD_append_left hk, fieldOffset_append_left (Nat.le_of_lt hk)]

theorem fieldOffset_take {fs : List FieldType} {j k : Nat} (h : k ≤ j) : fieldOffset (fs.take j) k = fieldOffset fs k := by
  simp [fieldOffset, List.take_take, Nat.min_eq_left h]

theorem fieldSlot_take {fs : List FieldType} {j k : Nat} (h : k < j) (m : Memory) (ws : Nat) :
    fieldSlot m ws (fs.take j) k = fieldSlot m ws fs k := by
  simp only [fieldSlot, fieldOffset_take (Nat.le_of_lt h), List.getD_eq_getElem?_getD, List.getElem?_take_of_lt h]

/-! ## The registers a decode leaves -/

/-- The record registers after a decode of the window at `ws` that read the first `n` of the fields `types`. -/
structure Decoded (s t : State) (ws : Word) (types : List FieldType) (n : Nat) : Prop where
  recCount : t.recCount.toNat = n
  curOff : t.curOff.toNat = fieldOffset types n
  slots : ∀ k, k < n → recSlot k t = fieldSlot s.buf ws.toNat types k
  others : ∀ k, n ≤ k → recSlot k t = recSlot k s
  length : t.recVal.length = s.recVal.length

/-- What a decode needs of the state: its window lies in the buffer, no offset wraps, and the four fixed slots exist (R10,
R26, R32, R9). -/
structure DecodeReady (s : State) (ws wl : Word) : Prop where
  window : ws.toNat + wl.toNat ≤ s.bufLen.toNat
  small : s.bufLen.toNat ≤ 2 ^ 29 - 1
  slots : s.recVal.length = s.cfg.recMax
  recMax : 4 ≤ s.cfg.recMax ∧ s.cfg.recMax ≤ 3840

theorem configWf_bounds {c : Config} (h : configWf c = true) :
    1 ≤ c.bufBytesMax ∧ c.bufBytesMax ≤ 2 ^ 29 - 1 ∧ 4 ≤ c.recMax ∧ c.recMax ≤ 3840 := by
  simp only [configWf, Bool.and_eq_true, decide_eq_true_eq] at h
  exact ⟨h.1.1.1.1.1, h.1.1.1.1.2, h.1.1.1.2, h.1.1.2⟩

/-- A state that meets the invariant is ready for any window in its buffer. -/
theorem State.Inv.ready {s : State} (h : s.Inv) {ws wl : Word} (hw : ws.toNat + wl.toNat ≤ s.bufLen.toNat) :
    DecodeReady s ws wl := by
  obtain ⟨-, h2, h3, h4⟩ := configWf_bounds h.config
  exact ⟨hw, Nat.le_trans h.bufSize h2, h.recSlots, h3, h4⟩

/-- The window of an accepted decode command lies in the buffer, and the command is the decode of it. -/
theorem DecodesWindow.decodes {i : Instr} {s : State} {ws wl : Word} (hs : s.Inv) (h : DecodesWindow i s ws wl) :
    ws.toNat + wl.toNat ≤ s.bufLen.toNat ∧ exec i s = decodeWindow ws wl s := by
  rcases h with ⟨rfl, h1, rfl, rfl⟩ | ⟨rfl, h1, rfl, h2⟩
  · refine ⟨h1, ?_⟩
    simp [exec, execDecWin, argWindowFits, h1]
  · obtain ⟨-, hm, -, -⟩ := hs.candidate h1
    simp only [frameMatch, Bool.and_eq_true, decide_eq_true_eq] at hm
    have hle : s.candStart.toNat ≤ s.bufLen.toNat := by omega
    have hwl : wl = BitVec.ofNat 32 (candidateWindow s) := by
      rw [candidateWindow, ← h2]
      simp
    refine ⟨by omega, ?_⟩
    simp only [exec, execDecCand, h1, if_true]
    rw [if_neg (by omega), hwl]

/-- The fixed reads of a decode (R143): a window of fewer than five bytes ends in TRUNCATED, and a longer one goes on with its
identifier. -/
theorem decodeWindow_fixed {s : State} {ws wl : Word} (h : DecodeReady s ws wl) :
    (wl.toNat < 5 ∧ ∃ j u, j < 4 ∧ Emitted (fixedFields.take j) (clearFrame (openCursor ws wl s)) u ∧
      fieldOffset fixedFields j ≤ 8 * wl.toNat ∧ 8 * wl.toNat < fieldOffset fixedFields (j + 1) ∧
      decodeWindow ws wl s = .next (finishFrame .truncated u)) ∨
    (5 ≤ wl.toNat ∧ ∃ u, Emitted fixedFields (clearFrame (openCursor ws wl s)) u ∧
      decodeWindow ws wl s = decodeMessage (messageBits s ws) (setMessage (messageBits s ws) u)) := by
  obtain ⟨h1, h2, h3, h4, h5⟩ := h
  rcases emitFields_spec (fs := fixedFields) (s := clearFrame (openCursor ws wl s)) (by decide) h1
      (by simp; omega) (by simp) (by simp [fixedFields]; omega) (by simp; omega) with
    ⟨hfit, u, hu, he⟩ | ⟨j, u, hj, hu, he, hlo, hhi⟩
  · have hid : messageId u = messageBits s ws := by
      have := he.fieldSlot (by simp) (by simp) 3 (by decide)
      rw [messageId, this]
      simp only [fieldSlot, fixedFields, fieldOffset, totalWidth, List.take, List.getD_cons_succ, List.getD_cons_zero,
        fieldPattern, zext32, messageBits]
      apply BitVec.eq_of_toNat_eq
      simp
    refine .inr ⟨?_, u, he, ?_⟩
    · simp [totalWidth, fixedFields] at hfit
      omega
    · rw [decodeWindow, hu, ← hid]
  · refine .inl ⟨?_, j, u, hj, he, by simpa using hlo, by simpa using hhi, by rw [decodeWindow, hu]⟩
    simp at hhi
    have : fieldOffset fixedFields (j + 1) ≤ 36 := by
      have hj4 : j < 4 := hj
      interval_cases j <;> decide
    omega

theorem Emitted.decoded {fs : List FieldType} {s t u : State} {ws wl : Word} {j : Nat} (hj : j ≤ fs.length)
    (h : Emitted (fs.take j) (clearFrame (openCursor ws wl s)) u)
    (hr : t.recVal = u.recVal) (hc : t.recCount = u.recCount) (ho : t.curOff = u.curOff) :
    Decoded s t ws fs j := by
  have hlen : (fs.take j).length = j := by simp [Nat.min_eq_left hj]
  have hslot : ∀ k, recSlot k t = recSlot k u := fun k => by simp [recSlot, hr]
  refine ⟨?_, ?_, ?_, ?_, ?_⟩
  · rw [hc, h.recCount, hlen]
    simp
  · rw [ho, h.curOff, fieldOffset]
    simp
  · intro k hk
    rw [hslot, h.fieldSlot (by simp) (by simp) k (by omega), fieldSlot_take hk]
    simp
  · intro k hk
    rw [hslot, h.others k (.inr (by rw [hlen]; simpa using hk))]
    simp [recSlot]
  · rw [hr, h.length]
    simp

/-- The schema reads after the fixed reads: the slots of both together. -/
theorem Emitted.decoded_append {gs : List FieldType} {s t u v : State} {ws wl : Word} {id : BitVec 12} {j : Nat}
    (hj : j ≤ gs.length) (h : Emitted fixedFields (clearFrame (openCursor ws wl s)) u)
    (h' : Emitted (gs.take j) (setMessage id u) v)
    (hr : t.recVal = v.recVal) (hc : t.recCount = v.recCount) (ho : t.curOff = v.curOff) :
    Decoded s t ws (fixedFields ++ gs) (4 + j) := by
  have hlen : (gs.take j).length = j := by simp [Nat.min_eq_left hj]
  have hslot : ∀ k, recSlot k t = recSlot k v := fun k => by simp [recSlot, hr]
  have hslot' : ∀ k, recSlot k (setMessage id u) = recSlot k u := fun k => by simp [recSlot]
  have hcount : u.recCount.toNat = 4 := by simpa [fixedFields] using h.recCount
  have hoff : u.curOff.toNat = 36 := by simpa [fixedFields, totalWidth] using h.curOff
  have hframe : u.buf = s.buf ∧ u.winStart = ws := by
    have := h.onlyReads
    unfold OnlyReads at this
    rw [this]
    exact ⟨rfl, rfl⟩
  have hoffset : fieldOffset (fixedFields ++ gs) (4 + j) = 36 + fieldOffset gs j :=
    fieldOffset_append_right fixedFields gs j
  refine ⟨?_, ?_, ?_, ?_, ?_⟩
  · rw [hc, h'.recCount, hlen]
    simp [hcount]
  · rw [ho, h'.curOff, hoffset]
    simp [hoff, fieldOffset]
  · intro k hk
    rw [hslot]
    by_cases hk4 : k < 4
    · rw [h'.others k (.inl (by simp [hcount, hk4])), hslot', fieldSlot_append_left hk4,
        h.fieldSlot (by simp) (by simp) k hk4]
      simp
    · obtain ⟨i, rfl⟩ : ∃ i, k = 4 + i := ⟨k - 4, by omega⟩
      have hi : i < j := by omega
      have := h'.slots i (by omega)
      simp only [setMessage_frame, hcount, hoff, hframe] at this
      rw [this, fieldOffset_take (Nat.le_of_lt hi)]
      have hget : (fixedFields ++ gs).getD (4 + i) ⟨0, false⟩ = gs.getD i ⟨0, false⟩ := by
        simp only [List.getD_eq_getElem?_getD]
        rw [List.getElem?_append_right (Nat.le_add_right 4 i)]
        simp [fixedFields]
      have hget' : (gs.take j).getD i ⟨0, false⟩ = gs.getD i ⟨0, false⟩ := by
        simp only [List.getD_eq_getElem?_getD, List.getElem?_take_of_lt hi]
      have hoffset' : fieldOffset (fixedFields ++ gs) (4 + i) = 36 + fieldOffset gs i :=
        fieldOffset_append_right fixedFields gs i
      simp only [Machine.fieldSlot, hget, hget', hoffset']
  · intro k hk
    have hk4 : 4 + j ≤ k := hk
    rw [hslot, h'.others k (.inr (by rw [hlen]; simp [hcount, hk4])), hslot',
      h.others k (.inr (by simp [fixedFields]; omega))]
    simp [recSlot]
  · rw [hr, h'.length]
    simp [h.length]

/-- Which outcome a decode ends in, and the registers it leaves, case by case in the priority of R154. -/
inductive DecodeOutcome (s t : State) (ws wl : Word) : Prop where
  | shortWindow (j : Nat) (short : wl.toNat < 5) (few : j < 4)
      (fits : fieldOffset fixedFields j ≤ 8 * wl.toNat) (past : 8 * wl.toNat < fieldOffset fixedFields (j + 1))
      (info : t.frInfo = { outcome := some .truncated, msg := none }) (err : t.frErr = FrErr.zero)
      (decoded : Decoded s t ws fixedFields j)
  | skipped (long : 5 ≤ wl.toNat) (absent : lookupSchema s.cfg.registry (messageBits s ws).toNat = none)
      (info : t.frInfo = { outcome := some .skip, msg := some (messageBits s ws) }) (err : t.frErr = FrErr.zero)
      (decoded : Decoded s t ws fixedFields 4)
  | oversized (e : SchemaEntry) (long : 5 ≤ wl.toNat)
      (found : lookupSchema s.cfg.registry (messageBits s ws).toNat = some e)
      (size : s.cfg.recMax < 4 + (readList s.cfg e).length)
      (info : t.frInfo = { outcome := some .configError, msg := some (messageBits s ws) }) (err : t.frErr = sizeError)
      (decoded : Decoded s t ws (slotTypes s.cfg e) 4)
  | badTag (e : SchemaEntry) (it : ReadItem) (long : 5 ≤ wl.toNat)
      (found : lookupSchema s.cfg.registry (messageBits s ws).toNat = some e)
      (size : 4 + (readList s.cfg e).length ≤ s.cfg.recMax) (first : firstInvalid (readList s.cfg e) = some it)
      (info : t.frInfo = { outcome := some .configError, msg := some (messageBits s ws) }) (err : t.frErr = tagError it)
      (decoded : Decoded s t ws (slotTypes s.cfg e) 4)
  | truncated (e : SchemaEntry) (j : Nat) (long : 5 ≤ wl.toNat)
      (found : lookupSchema s.cfg.registry (messageBits s ws).toNat = some e)
      (size : 4 + (readList s.cfg e).length ≤ s.cfg.recMax) (valid : firstInvalid (readList s.cfg e) = none)
      (few : j < (readList s.cfg e).length) (fits : fieldOffset (slotTypes s.cfg e) (4 + j) ≤ 8 * wl.toNat)
      (past : 8 * wl.toNat < fieldOffset (slotTypes s.cfg e) (4 + j + 1))
      (info : t.frInfo = { outcome := some .truncated, msg := some (messageBits s ws) }) (err : t.frErr = FrErr.zero)
      (decoded : Decoded s t ws (slotTypes s.cfg e) (4 + j))
  | recorded (e : SchemaEntry) (long : 5 ≤ wl.toNat)
      (found : lookupSchema s.cfg.registry (messageBits s ws).toNat = some e)
      (size : 4 + (readList s.cfg e).length ≤ s.cfg.recMax) (valid : firstInvalid (readList s.cfg e) = none)
      (fits : totalWidth (slotTypes s.cfg e) ≤ 8 * wl.toNat)
      (info : t.frInfo = { outcome := some .record, msg := some (messageBits s ws) }) (err : t.frErr = FrErr.zero)
      (decoded : Decoded s t ws (slotTypes s.cfg e) (4 + (readList s.cfg e).length))

/-- A decode of a window in the buffer always answers a next state, with exactly one of the outcomes of R154. -/
theorem decodeWindow_outcome {s : State} {ws wl : Word} (h : DecodeReady s ws wl) :
    ∃ t, decodeWindow ws wl s = .next t ∧ DecodeOutcome s t ws wl := by
  rcases decodeWindow_fixed h with ⟨hshort, j, u, hj, he, hlo, hhi, hd⟩ | ⟨hlong, u, he, hd⟩
  · refine ⟨_, hd, .shortWindow j hshort hj hlo hhi ?_ ?_ (he.decoded (Nat.le_of_lt hj) (by simp) (by simp) (by simp))⟩
    all_goals
      have := he.onlyReads
      unfold OnlyReads at this
      rw [this]
      rfl
  · have hframe : u.cfg = s.cfg ∧ u.buf = s.buf ∧ u.bufLen = s.bufLen ∧ u.winStart = ws ∧ u.winLen = wl ∧
        u.frInfo = FrInfo.zero ∧ u.frErr = FrErr.zero := by
      have := he.onlyReads
      unfold OnlyReads at this
      rw [this]
      exact ⟨rfl, rfl, rfl, rfl, rfl, rfl, rfl⟩
    obtain ⟨hcfg, hbuf, hlen, hws, hwl, hinfo, herr⟩ := hframe
    have hcount : u.recCount.toNat = 4 := by simpa [fixedFields] using he.recCount
    have hoff : u.curOff.toNat = 36 := by simpa [fixedFields, totalWidth] using he.curOff
    have hslots : u.recVal.length = s.recVal.length := by simpa using he.length
    rw [hd]
    simp only [decodeMessage, setMessage_frame, hcfg]
    cases hl : lookupSchema s.cfg.registry (messageBits s ws).toNat with
    | none =>
      exact ⟨_, rfl, .skipped hlong hl (by simp [hinfo, FrInfo.zero]) (by simp [herr])
        (Emitted.decoded (j := 4) (by decide) he (by simp) (by simp) (by simp))⟩
    | some e =>
      have hfour : ∀ t : State, t.recVal = u.recVal → t.recCount = u.recCount → t.curOff = u.curOff →
          Decoded s t ws (slotTypes s.cfg e) 4 := by
        intro t h1 h2 h3
        exact Emitted.decoded_append (j := 0) (v := setMessage (messageBits s ws) u) (Nat.zero_le _) he (Emitted.nil _)
          (by simp [h1]) (by simp [h2]) (by simp [h3])
      simp only [decodeEntry, setMessage_frame, hcfg]
      split
      next hsize =>
        exact ⟨_, rfl, .oversized e hlong hl hsize (by simp [hinfo, FrInfo.zero]) (by simp)
          (hfour _ (by simp) (by simp) (by simp))⟩
      next hsize =>
        have hsize : 4 + (readList s.cfg e).length ≤ s.cfg.recMax := Nat.le_of_not_lt hsize
        cases hf : firstInvalid (readList s.cfg e) with
        | some it =>
          exact ⟨_, rfl, .badTag e it hlong hl hsize hf (by simp [hinfo, FrInfo.zero]) (by simp)
            (hfour _ (by simp) (by simp) (by simp))⟩
        | none =>
          obtain ⟨h1, h2, h3, h4, h5⟩ := h
          have htotal : totalWidth (slotTypes s.cfg e) = 36 + totalWidth ((readList s.cfg e).map itemType) :=
            totalWidth_append _ _
          have hoffset : ∀ i, fieldOffset (slotTypes s.cfg e) (4 + i)
              = 36 + fieldOffset ((readList s.cfg e).map itemType) i :=
            fieldOffset_append_right fixedFields _
          rcases emitFields_spec (fs := (readList s.cfg e).map itemType) (s := setMessage (messageBits s ws) u)
              (one_le_width_itemTypes _) (by simpa [hws, hwl, hlen] using h1) (by simp [hwl]; omega)
              (by simp [hoff, hwl]; omega) (by simp [hcount, hslots]; omega) (by simp [hslots]; omega) with
            ⟨hfit, v, hv, hev⟩ | ⟨j, v, hj, hv, hev, hlo, hhi⟩
          · have hkeep := hev.onlyReads
            unfold OnlyReads at hkeep
            simp only [setMessage_frame, hoff, hwl] at hfit
            refine ⟨finishFrame .record v, by simp only [decodeFields, hv], .recorded e hlong hl hsize hf (by omega)
              (by rw [hkeep]; simp [hinfo, FrInfo.zero]) (by rw [hkeep]; simp [herr]) ?_⟩
            rw [← List.length_map (f := itemType)]
            exact Emitted.decoded_append (Nat.le_refl _) he (by rw [List.take_length]; exact hev)
              (by simp) (by simp) (by simp)
          · have hkeep := hev.onlyReads
            unfold OnlyReads at hkeep
            simp only [setMessage_frame, hoff, hwl] at hlo hhi
            refine ⟨finishFrame .truncated v, by simp only [decodeFields, hv],
              .truncated e j hlong hl hsize hf (by simpa using hj) (by rw [hoffset]; exact hlo)
                (by rw [Nat.add_assoc, hoffset]; exact hhi) (by rw [hkeep]; simp [hinfo, FrInfo.zero])
                (by rw [hkeep]; simp [herr]) ?_⟩
            exact Emitted.decoded_append (Nat.le_of_lt hj) he hev (by simp) (by simp) (by simp)

/-- The four fixed reads take 36 bits (R140). -/
theorem fieldOffset_slotTypes_four (c : Config) (e : SchemaEntry) : fieldOffset (slotTypes c e) 4 = 36 :=
  fieldOffset_append_right fixedFields _ 0

theorem length_slotTypes (c : Config) (e : SchemaEntry) : (slotTypes c e).length = 4 + (readList c e).length := by
  simp [slotTypes, fixedFields]
  omega

/-- The outcome of a decode command that was accepted and answered `t`. -/
theorem DecodesWindow.outcome {i : Instr} {s t : State} {ws wl : Word} (hs : s.Inv) (hd : DecodesWindow i s ws wl)
    (h : exec i s = .next t) : decodeWindow ws wl s = .next t ∧ DecodeOutcome s t ws wl := by
  obtain ⟨hw, hx⟩ := hd.decodes hs
  obtain ⟨u, hu, ho⟩ := decodeWindow_outcome (hs.ready hw)
  have : u = t := next_inj.1 (hu.symm.trans (hx.symm.trans h))
  subst this
  exact ⟨hu, ho⟩

/-- The record and cursor registers a decode leaves stay within their bounds (10_state.md R25, R33). -/
theorem DecodeOutcome.bounds {s t : State} {ws wl : Word} (hr : DecodeReady s ws wl) (ho : DecodeOutcome s t ws wl) :
    t.recCount.toNat ≤ s.cfg.recMax ∧ t.recVal.length = s.recVal.length ∧ t.curOff.toNat ≤ 8 * wl.toNat := by
  have hmax := hr.recMax
  have hfour : fieldOffset fixedFields 4 = 36 := rfl
  cases ho with
  | shortWindow j h1 h2 h3 h4 h5 h6 h7 =>
    exact ⟨by rw [h7.recCount]; omega, h7.length, by rw [h7.curOff]; exact h3⟩
  | skipped h1 h2 h5 h6 h7 => exact ⟨by rw [h7.recCount]; omega, h7.length, by rw [h7.curOff, hfour]; omega⟩
  | oversized e h1 h2 h3 h5 h6 h7 =>
    exact ⟨by rw [h7.recCount]; omega, h7.length, by rw [h7.curOff, fieldOffset_slotTypes_four]; omega⟩
  | badTag e it h1 h2 h3 h5 h6 h8 h7 =>
    exact ⟨by rw [h7.recCount]; omega, h7.length, by rw [h7.curOff, fieldOffset_slotTypes_four]; omega⟩
  | truncated e j h1 h2 h3 h5 h6 h8 h9 h10 h11 h7 =>
    exact ⟨by rw [h7.recCount]; omega, h7.length, by rw [h7.curOff]; exact h8⟩
  | recorded e h1 h2 h3 h5 h6 h8 h9 h7 =>
    exact ⟨by rw [h7.recCount]; omega, h7.length,
      by rw [h7.curOff, ← length_slotTypes, fieldOffset_length]; exact h6⟩

end Sys2Proof.Machine
end

