-- ==== Sys2Proof/Laws/PerInstr.lean ====
section
/-! SUPPORT. What holds of every command as syntax: its word meets the match and mask of its row of 30_encoding.md R82. -/

namespace Sys2Proof.Laws.EncodeMatchesRow

/-- The word of a well-formed command agrees with its row's `match` word on every bit of its row's `mask` (R82). -/
def Statement (i : Instr) : Prop := i.wf = true → encode i &&& i.maskWord = i.matchWord

theorem nop : Statement .nop := fun _ => rfl

theorem curSet : Statement .curSet := fun _ => rfl

theorem rdU (w : Nat) : Statement (.rdU w) := by
  intro h
  simp only [Instr.wf, legalWidth, Bool.and_eq_true, decide_eq_true_eq] at h
  obtain ⟨h1, h2⟩ := h
  interval_cases w <;> rfl

theorem rdS (w : Nat) : Statement (.rdS w) := by
  intro h
  simp only [Instr.wf, legalWidth, Bool.and_eq_true, decide_eq_true_eq] at h
  obtain ⟨h1, h2⟩ := h
  interval_cases w <;> rfl

theorem curClr : Statement .curClr := fun _ => rfl

theorem scanStart : Statement .scanStart := fun _ => rfl

theorem scanNext : Statement .scanNext := fun _ => rfl

theorem decCand : Statement .decCand := fun _ => rfl

theorem decWin : Statement .decWin := fun _ => rfl

end Sys2Proof.Laws.EncodeMatchesRow
end

