-- ==== Sys2Proof/Tests/Slice0.lean ====
section
/-! SUPPORT. Tests: expected values are those of 95_test_vectors.md and of the rules' own examples. Each `witness_…` theorem shows
that the hypotheses of the obligation it names can be met together. -/

namespace Sys2Proof.Tests

open Sys2Proof.Machine

/-! ## Fixtures (95_test_vectors.md, "Conventions") -/

/-- `name:tag`. -/
def desc (name tag : String) : Descriptor := mkDescriptor name "" tag

/-- The fixture registry `REG_T`. -/
def regT : Registry :=
  [(100, { header := [desc "msg_number" "uint12", desc "station" "uint12", desc "flag" "bit1", desc "delta" "int7"]
           content := [desc "c_pad" "uint4", desc "val" "int20", desc "cnr" "uint6"] }),
   (101, { header := [desc "msg_number" "uint12", desc "bad" "float32"], content := [] }),
   (102, { header := [desc "msg_number" "uint12", desc "big" "uint32"], content := [] }),
   (103, { header := [], content := [] }),
   (104, { header := [desc "msg_number" "uint12"], content := [desc "bad" "uint0", desc "x" "uint8"] }),
   (105, { header := [desc "msg_number" "uint12", desc "s1" "int1", desc "u3" "bit3"], content := [] }),
   (2004, { header := [desc "msg_number" "uint12", desc "sat" "uint4"], content := [] })]

/-- The fixture registry over a small buffer and 16 record slots. -/
def cfgT : Config := { Config.reference with bufBytesMax := 64, recMax := 16, registry := regT }

/-- The frame `F100`. -/
def f100 : List Byte := [0xD3, 0x00, 0x08, 0x06, 0x44, 0xD2, 0xFB, 0xB6, 0xC2, 0x0B, 0x40, 0x11, 0x22, 0x33]

/-- A frame with identifier 125, which is absent (41_decoder.md R155). -/
def f125 : List Byte := [0xD3, 0x00, 0x01, 0x07, 0xD0, 0xAA, 0xBB, 0xCC]

/-- The frame of DV3, whose entry has a bad tag. -/
def f101 : List Byte := [0xD3, 0x00, 0x02, 0x06, 0x50, 0x00, 0x00, 0x00]

/-- The state after reset and a load. -/
def withBuffer (c : Config) (bytes : List Byte) : State := loadBuffer bytes (State.resetWith c)

/-- A cursor over the whole of a buffer, at offset `o`. -/
def withCursor (bytes : List Byte) (o : Nat) : State :=
  { withBuffer cfgT bytes with
    winLen := BitVec.ofNat 32 bytes.length, curOff := BitVec.ofNat 32 o, status := { Status.zero with curValid := true } }

/-- A scan that has just found the candidate at byte 0 of a buffer. -/
def withCandidate (c : Config) (bytes : List Byte) : State :=
  completeCommand (takeCandidate 0 (beginScan (withBuffer c bytes)))

/-- A buffer with operands. -/
def withArgs (c : Config) (bytes : List Byte) (a l : Word) : State := setArg0 a (setArg1 l (withBuffer c bytes))

/-- The next state, if there is one. -/
def nextOf (o : Host.Outcome State Fault Refusal) : Option State :=
  match o with
  | .next s => some s
  | .fault _ => none
  | .refused _ => none

/-- `FR_INFO`, `FR_ERR`, `CUR_OFF` and the record's slots. -/
def frameOf (s : State) : Word × Word × Word × List Word := (s.frInfo.word, s.frErr.word, s.curOff, recordSlots s)

/-! ## Well-formedness -/

theorem test_wf_refuses_widths : [Instr.rdU 0, .rdU 33, .rdS 0, .rdS 33].map Instr.wf = [false, false, false, false] := by decide

theorem test_wf_accepts_widths : [Instr.rdU 1, .rdU 32, .rdS 1, .rdS 32].map Instr.wf = [true, true, true, true] := by decide

theorem test_wf_without_operands :
    [Instr.nop, .curSet, .curClr, .scanStart, .scanNext, .decCand, .decWin].all Instr.wf = true := by decide

/-! ## Decoding: words written out bit by bit from R81 and R82 -/

theorem test_decode_nop : decode 0b00000000_000000000000000000000000 = .ok .nop := by decide

theorem test_decode_curSet : decode 0b00000001_000000000000000000000000 = .ok .curSet := by decide

theorem test_decode_rdU : decode 0b00000010_000000000000000000_0_01011 = .ok (.rdU 12) := by decide

theorem test_decode_rdS : decode 0b00000010_000000000000000000_1_10011 = .ok (.rdS 20) := by decide

theorem test_decode_curClr : decode 0b00000011_000000000000000000000000 = .ok .curClr := by decide

theorem test_decode_scanStart : decode 0b00010000_000000000000000000000000 = .ok .scanStart := by decide

theorem test_decode_scanNext : decode 0b00010001_000000000000000000000000 = .ok .scanNext := by decide

theorem test_decode_decCand : decode 0b00100000_00000000000000000000000_0 = .ok .decCand := by decide

theorem test_decode_decWin : decode 0b00100000_00000000000000000000000_1 = .ok .decWin := by decide

/-- The rejected words of L2.1. -/
theorem test_decode_rejects :
    [0x00000001, 0x02000040, 0x20000002, 0x04000000, 0xFFFFFFFF].map decode =
      [.error .mustBeZero, .error .mustBeZero, .error .mustBeZero, .error .reservedOpcode, .error .reservedOpcode] := by decide

theorem test_decodeTableWord :
    (decodeTableWord 32 0x0200001F, decodeTableWord 32 0x04000000, decodeTableWord 40 0x100000000) =
      (some (.rdU 32), none, none) := by decide

/-- The tags of L2.2 that resolve. -/
theorem test_resolveTag :
    ["uint1", "uint12", "uint32", "bit8", "bit32", "int1", "int20", "int32"].map resolveTag =
      [0x80, 0x8B, 0x9F, 0x87, 0x9F, 0xA0, 0xB3, 0xBF] := by decide

/-- The tags of L2.2 and R92 that do not. -/
theorem test_resolveTag_unresolvable :
    ["uint0", "uint33", "uint08", "int", "bit", "float32", "Uint8", "uint 8", "int-3"].all (fun t => resolveTag t == 0x00) =
      true := by decide

theorem test_assembler :
    (parseCommand "rd.s 20", parseCommand "rd.u 33", parseCommand "rd.u 08", commandText (.rdU 12)) =
      (some (.rdS 20), none, none, "rd.u 12") := by decide

/-! ## One step of each command -/

theorem test_nop : (nextOf (exec .nop (raiseError .outOfRange (withBuffer cfgT [])))).map (fun s => s.status.word) =
    some 0x10 := by decide

/-- R117's example. -/
theorem test_curSet :
    (nextOf (exec .curSet (withArgs cfgT [0xFF, 0x00] 0 2))).map (fun s => (s.winStart, s.winLen, s.curOff, s.status.word)) =
      some (0, 2, 0, 0x20) := by decide

/-- L2.4: no wrap at 32 bits. -/
theorem test_curSet_no_wrap :
    (nextOf (exec .curSet (withArgs cfgT [0x01, 0x02] 0xFFFFFFFF 1))).map (fun s => (s.status.word, s.winLen)) =
      some (0x14, 0) := by decide

/-- L1.1, the source's example. -/
theorem test_rdU :
    (nextOf (exec (.rdU 8) (withCursor [0xFF, 0x00] 4))).map (fun s => (s.result, s.curOff, s.status.word)) =
      some (0xF0, 12, 0x20) := by decide

/-- L1.2: a read of 32 bits over five bytes. -/
theorem test_rdU_five_bytes :
    (nextOf (exec (.rdU 32) (withCursor [0x01, 0xFF, 0xFF, 0xFF, 0xFE] 7))).map (fun s => (s.result, s.curOff)) =
      some (0xFFFFFFFF, 39) := by decide

/-- L2.3. -/
theorem test_rdS :
    (nextOf (exec (.rdS 20) (withCursor [0xF8, 0x76, 0x54] 2))).map (fun s => (s.result, s.curOff, s.status.word)) =
      some (0xFFFE1D95, 22, 0x220) := by decide

/-- L2.4, with the signed form: the read is out of range and the cursor ends. -/
theorem test_rdS_out_of_range :
    (nextOf (exec (.rdS 5) (withCursor [0x01, 0x02] 12))).map (fun s => (s.result, s.curOff, s.status.word)) =
      some (0, 12, 0x13) := by decide

/-- L2.4. -/
theorem test_curClr :
    (nextOf (exec .curClr (withCursor [0x01, 0x02] 3))).map (fun s => (s.winLen, s.curOff, s.status.word)) =
      some (2, 3, 0) := by decide

theorem test_scanStart :
    (nextOf (exec .scanStart { withCandidate cfgT f100 with scanPos := 40 })).map (fun s => (s.scanPos, s.status.word)) =
      some (0, 0x40) := by decide

/-- R190's example. -/
theorem test_scanNext :
    (nextOf (exec .scanNext (beginScan (withBuffer cfgT
      [0x00, 0xD3, 0x04, 0x01, 0xD3, 0x00, 0x02, 0x11, 0x22, 0x33, 0x44, 0x55])))).map (fun s => (candidateOf s, s.status.word)) =
      some ({ start := 4, len := 2, span := 8, pos := 7 }, 0x140) := by decide

/-- L2.5: a preamble at `BUF_LEN - 2` never matches. -/
theorem test_scanNext_done :
    (nextOf (exec .scanNext (beginScan (withBuffer cfgT [0xD3, 0x01])))).map (fun s => (s.scanPos, s.status.word)) =
      some (2, 0xC0) := by decide

/-- DV1. -/
theorem test_decCand :
    (nextOf (exec .decCand (withCandidate cfgT f100))).map frameOf =
      some (0x649, 0, 82, [0xD3, 0, 8, 0x64, 0x4D2, 1, 0xFFFFFFFB, 0xFFFB6C20, 0x2D]) := by decide

/-- DV8: content index 0 is read, and its tag is bad. -/
theorem test_decCand_bad_content :
    (nextOf (exec .decCand (withCandidate { cfgT with contentSkipFirst := false }
      [0xD3, 0x00, 0x02, 0x06, 0x8A, 0xBC, 0x00, 0x00]))).map frameOf =
      some (0x68B, 0x10000, 36, [0xD3, 0, 2, 0x68]) := by decide

/-- R156's example. -/
theorem test_decWin :
    (nextOf (exec .decWin (withArgs cfgT [0xD3, 0x00, 0x02, 0xFF, 0xF0] 0 5))).map frameOf =
      some (0xFFFA, 0, 36, [0xD3, 0, 2, 0xFFF]) := by decide

/-- L2.6: a window of five bytes over `F100`. -/
theorem test_decWin_truncated :
    (nextOf (exec .decWin (withArgs cfgT f100 0 5))).map frameOf = some (0x64C, 0, 36, [0xD3, 0, 8, 0x64]) := by decide

/-! ## The host -/

/-- `ID`, a reserved index and `CMD` as a host reads them (R41 to R43). -/
theorem test_hostRead :
    (hostRead 0x014 State.reset, hostRead 0xFFF State.reset, hostRead 0x000 State.reset) = (0x47530007, 0, 0) := by decide

/-- The reads, at 16 slots, on both sides of each boundary of R24's reserved ranges. -/
theorem test_hostRead_boundaries :
    [0x014, 0x015, 0x0FF, 0x100, 0x10F, 0x110].map (registerAt 16) =
      [.id, .reserved 0x015, .reserved 0x0FF, .recVal 0, .recVal 15, .reserved 0x110] := by decide

/-- A step runs the word that `withFetchWord` gives the host to write. -/
theorem test_withFetchWord :
    (nextOf (step (State.reset.withFetchWord 32 0x11000000))).map (fun s => (s.status.word, s.hostQueue)) =
      some (0x15, []) := by decide

/-- P3: the pipeline's counters under both values of `SCAN_RESUME`. -/
theorem test_pipeline_resume :
    ([ScanResume.lenPlus1, .lenPlus6].map fun r =>
      (runPipeline [0xD3, 0x00, 0x02, 0x06, 0x70, 0xD3, 0x00, 0x01, 0x07, 0xD0, 0xEE]
        (State.resetWith { cfgT with scanResume := r })).map fun p => (p.2.cntRec, p.2.cntSkip, p.2.frInfo.word, p.2.scanPos)) =
      [some (1, 1, 0x7DA, 11), some (1, 0, 0x679, 11)] := by decide

/-- The record of `F100` (P2). -/
theorem test_decodedRecord :
    ((nextOf (exec .decCand (withCandidate cfgT f100))).bind decodedRecord) =
      some [("header", 211), ("zero", 0), ("length", 8), ("msg_number", 100), ("station", 1234), ("flag", 1), ("delta", -5),
        ("val", -300000), ("cnr", 45)] := by decide

/-! ## Witnesses: the hypotheses of every obligation can be met together -/

/-- `s` with the host about to write `v` to `CMD`. -/
def aboutTo (v : Word) (s : State) : State := setQueue [.write cmdIndex v] s

theorem inv_withCandidate_f100 : (withCandidate cfgT f100).Inv := by constructor <;> decide

theorem inv_withCandidate_f125 : (withCandidate cfgT f125).Inv := by constructor <;> decide

theorem inv_withCandidate_f101 : (withCandidate cfgT f101).Inv := by constructor <;> decide

theorem inv_withCursor : (withCursor [0xFF, 0x00] 4).Inv := by constructor <;> decide

theorem inv_aboutTo_read : (aboutTo 0x02000007 (withCursor [0xFF, 0x00] 4)).Inv := by constructor <;> decide

theorem inv_withArgs (l : Word) : (withArgs cfgT f100 0 l).Inv := by
  have h : (withArgs cfgT f100 0 0).Inv := by constructor <;> decide
  exact ⟨h.config, h.bufCanonical, h.bufBelow, h.bufSize, h.window, h.windowSize, h.cursor, h.candidate, h.candLenBits,
    h.scanDone, h.scanBound, h.recCount, h.recSlots⟩

/-- A buffer with six record slots, too few for `F100`'s entry (DV10). -/
theorem inv_small : (withCandidate { cfgT with recMax := 6 } f100).Inv := by constructor <;> decide

/-- The candidate of each fixture is a window that `dec.cand` accepts. -/
theorem window_f100 : DecodesWindow .decCand (withCandidate cfgT f100) 0 14 := .inr (by decide)

theorem window_f125 : DecodesWindow .decCand (withCandidate cfgT f125) 0 7 := .inr (by decide)

theorem window_f101 : DecodesWindow .decCand (withCandidate cfgT f101) 0 8 := .inr (by decide)

theorem window_small : DecodesWindow .decCand (withCandidate { cfgT with recMax := 6 } f100) 0 14 := .inr (by decide)

/-- A window of five bytes, which `dec.win` accepts. -/
theorem window_args : DecodesWindow .decWin (withArgs cfgT f100 0 5) 0 5 := .inl (by decide)

theorem witness_DecodeOfEncodeGivesTheCommand : (Instr.rdS 32).wf = true ∧ (Instr.rdU 1).wf = true := by decide

theorem witness_DecodedWordIsTheCommandsOwnWord : decode 0x0200003F = .ok (.rdS 32) := by decide

theorem witness_ReservedOpcodeRaisesIllegalCmd :
    bitField 0x04000000 31 24 ∉ [0x00, 0x01, 0x02, 0x03, 0x10, 0x11, 0x20] ∧
      bitField 0xFFFFFFFF 31 24 ∉ [0x00, 0x01, 0x02, 0x03, 0x10, 0x11, 0x20] := by decide

/-- The lowest must-be-zero bit of each format. -/
theorem witness_MustBeZeroBitRaisesIllegalCmd :
    (bitField 0x00000001 31 24 ∈ [0x00, 0x01, 0x03, 0x10, 0x11] ∧ bitField 0x00000001 23 0 ≠ 0) ∧
      (bitField 0x02000040 31 24 = 0x02 ∧ bitField 0x02000040 23 6 ≠ 0) ∧
      (bitField 0x20000002 31 24 = 0x20 ∧ bitField 0x20000002 23 1 ≠ 0) := by decide

theorem witness_TagsResolveByTheGrammar : (1 ≤ 32 ∧ 32 ≤ 32) ∧ resolveTag "int20" ≠ 0x00#8 := by decide

theorem witness_AssemblerReadsItsOwnLines : (Instr.rdU 32).wf = true := by decide

theorem witness_StepRunsTheDecodedCommand :
    (aboutTo 0x11000000 State.reset).hostQueue = [.write cmdIndex 0x11000000] ∧ decode 0x11000000 = .ok .scanNext := by decide

theorem witness_StepPerformsTheHostsNextAction :
    (setQueue [.write 0x003 7] State.reset).hostQueue = .write 0x003 7 :: [] ∧
      (setQueue [.read 0x014] State.reset).hostQueue = .read 0x014 :: [] ∧
      (setQueue [.load [0xD3]] State.reset).hostQueue = .load [0xD3] :: [] := ⟨rfl, rfl, rfl⟩

/-- The indices on both sides of the two operands, the last index, and the ends of the reserved ranges at 16 slots. -/
theorem witness_HostWriteStoresOnlyTheOperands :
    (0x001#12).toNat = 0x001 ∧ (0x002#12).toNat = 0x002 ∧ 0x005 ≤ (0x005#12).toNat ∧ 0x005 ≤ (0xFFF#12).toNat ∧
      0x015 ≤ (0x015#12).toNat ∧ (0x0FF#12).toNat ≤ 0x0FF ∧ 0x100 + cfgT.recMax ≤ (0x110#12).toNat := by decide

/-- The first and the last slot of 16. -/
theorem witness_HostReadReturnsTheMappedRegister :
    (0 < cfgT.recMax ∧ (0x100#12).toNat = 0x100 + 0) ∧ 15 < cfgT.recMax ∧ (0x10F#12).toNat = 0x100 + 15 := by decide

/-- A load of exactly `BUF_BYTES_MAX` bytes, and one of a byte more. -/
theorem witness_LoadReplacesTheBuffer :
    [0xD3#8, 0x00].length ≤ (State.resetWith { cfgT with bufBytesMax := 2 }).cfg.bufBytesMax ∧
      (State.resetWith { cfgT with bufBytesMax := 2 }).cfg.bufBytesMax < [0xD3#8, 0x00, 0x01].length := by decide

theorem witness_IdleBlockKeepsItsState : State.reset.hostQueue = [] := rfl

theorem witness_CommandsLeaveBufferAndOperands : ∃ t, exec .decCand (withCandidate cfgT f100) = .next t := ⟨_, rfl⟩

theorem witness_OnlyALoadChangesTheBuffer :
    (∃ t, hostAct (.write 0x000 0x20000000) (withCandidate cfgT f100) = .next t) ∧
      ∀ bytes, HostAction.write 0x000 0x20000000 ≠ .load bytes := ⟨⟨_, rfl⟩, by simp⟩

theorem witness_StickyErrorIsNeverCleared :
    ∃ t, hostAct (.write 0x000 0) (raiseError .noScan State.reset) = .next t ∧
      (raiseError .noScan State.reset).status.errSticky = true := ⟨_, rfl, rfl⟩

/-- A command that ends with no error, one that raises `NO_CANDIDATE`, and one that raises `OUT_OF_RANGE`. -/
theorem witness_FailingCommandWritesOnlyItsError :
    (∃ t, exec .nop State.reset = .next t ∧ t.status.err = none) ∧
      (∃ t, exec .decCand State.reset = .next t ∧ t.status.err = some .noCandidate) ∧
      ∃ t, exec (.rdU 5) (withCursor [0x01, 0x02] 12) = .next t ∧ t.status.err = some .outOfRange :=
  ⟨⟨_, rfl, rfl⟩, ⟨_, rfl, rfl⟩, ⟨_, rfl, rfl⟩⟩

/-- A command with no error, a decode with an outcome, a decode with an error, and a word that is no command. -/
theorem witness_CommandsEndAsTheTableSays :
    (∃ t, exec .scanStart State.reset = .next t ∧ t.status.err = none) ∧
      (∃ t, exec .decCand (withCandidate cfgT f100) = .next t ∧ t.status.err = none) ∧
      (∃ t, exec .decCand State.reset = .next t ∧ t.status.err ≠ none) ∧ decode 0x04000000 = .error .reservedOpcode :=
  ⟨⟨_, rfl, rfl⟩, ⟨_, rfl, rfl⟩, ⟨_, rfl, by decide⟩, by decide⟩

/-- A decode with an outcome, a decode with an error, and another command. -/
theorem witness_CountersCountTheOutcomes :
    (∃ t, exec .decCand (withCandidate cfgT f125) = .next t ∧ t.status.err = none) ∧
      (∃ t, exec .decCand State.reset = .next t ∧ t.status.err ≠ none) ∧ ∃ t, exec .scanStart State.reset = .next t :=
  ⟨⟨_, rfl, rfl⟩, ⟨_, rfl, by decide⟩, ⟨_, rfl⟩⟩

theorem witness_ResetMeetsTheInvariants : configWf cfgT = true ∧ configWf Config.reference = true := by decide

theorem witness_CommandsInTheResetState : (1 ≤ 32 ∧ 32 ≤ 32) ∧ (0xFFFFFFFF#32).toNat + (1#32).toNat ≠ 0 := by decide

theorem witness_StepKeepsTheInvariant :
    (aboutTo 0x02000007 (withCursor [0xFF, 0x00] 4)).Inv ∧
      ∃ t, step (aboutTo 0x02000007 (withCursor [0xFF, 0x00] 4)) = .next t := ⟨inv_aboutTo_read, _, rfl⟩

theorem witness_StepKeepsTheFrameInvariant :
    (aboutTo 0x02000007 (withCursor [0xFF, 0x00] 4)).Inv ∧ (aboutTo 0x02000007 (withCursor [0xFF, 0x00] 4)).FrameInv ∧
      ∃ t, step (aboutTo 0x02000007 (withCursor [0xFF, 0x00] 4)) = .next t :=
  ⟨inv_aboutTo_read, ⟨rfl, rfl, rfl⟩, _, rfl⟩

/-- A state of the invariant that steps on, and one whose step is refused. -/
theorem witness_InvariantStatesNeverFault :
    (withCandidate cfgT f100).Inv ∧ (setQueue [.load [0, 0, 0]] (State.resetWith { cfgT with bufBytesMax := 2 })).Inv :=
  ⟨inv_withCandidate_f100, by constructor <;> decide⟩

/-- A window that ends at the buffer's end, and one that ends a byte beyond it. -/
theorem witness_CurSetOpensTheArgumentWindow :
    (withArgs cfgT f100 10 4).arg0.toNat + (withArgs cfgT f100 10 4).arg1.toNat ≤ (withArgs cfgT f100 10 4).bufLen.toNat ∧
      (withArgs cfgT f100 10 5).bufLen.toNat < (withArgs cfgT f100 10 5).arg0.toNat + (withArgs cfgT f100 10 5).arg1.toNat := by
  decide

/-- No cursor; a cursor one bit short of a read of 13 bits; and a read of 12 that ends exactly at the window's end. -/
theorem witness_RdUReadsTheFieldUnsigned :
    State.reset.status.curValid = false ∧ (withCursor [0xFF, 0x00] 4).status.curValid = true ∧
      8 * (withCursor [0xFF, 0x00] 4).winLen.toNat < (withCursor [0xFF, 0x00] 4).curOff.toNat + 13 ∧
      (withCursor [0xFF, 0x00] 4).winStart.toNat + (withCursor [0xFF, 0x00] 4).winLen.toNat ≤
        (withCursor [0xFF, 0x00] 4).bufLen.toNat ∧
      (withCursor [0xFF, 0x00] 4).curOff.toNat + 12 ≤ 8 * (withCursor [0xFF, 0x00] 4).winLen.toNat := by decide

/-- As for `rd.u`; and a field of each sign: the bits `1111 0000` from offset 4, and `0000` from offset 8. -/
theorem witness_RdSReadsTheFieldSigned :
    State.reset.status.curValid = false ∧ (withCursor [0xFF, 0x00] 4).status.curValid = true ∧
      8 * (withCursor [0xFF, 0x00] 4).winLen.toNat < (withCursor [0xFF, 0x00] 4).curOff.toNat + 13 ∧
      (withCursor [0xFF, 0x00] 4).winStart.toNat + (withCursor [0xFF, 0x00] 4).winLen.toNat ≤
        (withCursor [0xFF, 0x00] 4).bufLen.toNat ∧
      (withCursor [0xFF, 0x00] 4).curOff.toNat + 12 ≤ 8 * (withCursor [0xFF, 0x00] 4).winLen.toNat ∧
      streamBit (withCursor [0xFF, 0x00] 4).buf 0 4 = 1 ∧ streamBit (withCursor [0xFF, 0x00] 8).buf 0 8 = 0 := by decide

theorem witness_ExtractionIsTheAccumulatorRead : 1 ≤ 32 ∧ 32 ≤ 32 := by decide

/-- What the host reads of all registers, in the order of R24: `CMD` as 0 (R43) first, `ID` last. -/
theorem test_readAllRegisters (s : State) : readAllRegisters s = [0, s.status.word, s.bufLen, s.arg0, s.arg1, s.winStart, s.winLen, s.curOff, s.result,
  s.scanPos, s.candStart, s.candLen, s.candSpan, s.frInfo.word, s.frErr.word, s.recCount, s.cntRec, s.cntSkip, s.cntCfg,
  s.cntTrunc, 0x47530007] := rfl

/-- Widths at both ends, five bytes and four, and two memories that agree on the touched bytes and nowhere else. -/
theorem witness_ReadsTouchAtMostFiveBytes :
    1 ≤ 26 ∧ 26 ≤ 32 ∧ bytesTouched 7 26 = 5 ∧ bytesTouched 6 26 = 4 ∧ bytesTouched 7 1 = 1 ∧ 4 < bytesTouched 7 26 ∧
      ∀ a, 2 + 7 / 8 ≤ a → a < 2 + 7 / 8 + bytesTouched 7 1 →
        Memory.get [⟨1, 0xFF⟩, ⟨2, 0x01⟩] a = Memory.get [⟨2, 0x01⟩, ⟨3, 0xFF⟩] a :=
  ⟨by decide, by decide, by decide, by decide, by decide, by decide, fun a h1 h2 => by
    obtain rfl : a = 2 := by
      simp only [bytesTouched] at h2
      omega
    decide⟩

theorem witness_NarrowReadsComposeToAWideRead :
    1 ≤ 4 ∧ 1 ≤ 8 ∧ 4 + 8 ≤ 32 ∧ (withCursor [0xFF, 0x00] 4).status.curValid = true ∧
      (withCursor [0xFF, 0x00] 4).winStart.toNat + (withCursor [0xFF, 0x00] 4).winLen.toNat ≤
        (withCursor [0xFF, 0x00] 4).bufLen.toNat ∧
      8 * (withCursor [0xFF, 0x00] 4).winLen.toNat < 2 ^ 32 ∧
      (withCursor [0xFF, 0x00] 4).curOff.toNat + (4 + 8) ≤ 8 * (withCursor [0xFF, 0x00] 4).winLen.toNat := by decide

/-- The pattern of -7 in five bits (L1.3). -/
theorem witness_SignedFieldRoundTrips :
    1 ≤ 5 ∧ 5 ≤ 32 ∧ (withCursor [0xC8] 0).status.curValid = true ∧
      (withCursor [0xC8] 0).winStart.toNat + (withCursor [0xC8] 0).winLen.toNat ≤ (withCursor [0xC8] 0).bufLen.toNat ∧
      (withCursor [0xC8] 0).curOff.toNat + 5 ≤ 8 * (withCursor [0xC8] 0).winLen.toNat ∧
      -(2 ^ (5 - 1) : Int) ≤ -7 ∧ (-7 : Int) < 2 ^ (5 - 1) ∧
      ∀ k, k < 5 → (streamBit (withCursor [0xC8] 0).buf (withCursor [0xC8] 0).winStart.toNat
        ((withCursor [0xC8] 0).curOff.toNat + k) : Int) = -7 / 2 ^ (5 - 1 - k) % 2 := by decide

/-- An action of each case: a new cursor, a read, and another command. -/
theorem witness_CursorOffsetOnlyIncreases :
    (withCursor [0xFF, 0x00] 4).Inv ∧ (withCursor [0xFF, 0x00] 4).status.curValid = true ∧
      [encode .curSet, encode (.rdU 8), encode .scanStart].map
          (fun v => (nextOf (hostAct (.write 0x000 v) (withCursor [0xFF, 0x00] 4))).map fun s => (s.status.curValid, s.curOff)) =
        [some (true, 0), some (true, 12), some (true, 4)] := ⟨inv_withCursor, by decide⟩

/-- No scan; a scan with a match at its first index; and a scan with no match. -/
theorem witness_ScanNextFindsTheNextCandidate :
    State.reset.status.scanActive = false ∧
      ((beginScan (withBuffer cfgT f100)).status.scanActive = true ∧ (beginScan (withBuffer cfgT f100)).scanPos.toNat ≤ 0 ∧
        frameMatch (withBuffer cfgT f100).buf (withBuffer cfgT f100).bufLen.toNat 0 = true ∧
        ∀ k, 0 ≤ k → k < 0 → frameMatch (withBuffer cfgT f100).buf (withBuffer cfgT f100).bufLen.toNat k = false) ∧
      ((beginScan (withBuffer cfgT [0xD3, 0x01])).status.scanActive = true ∧
        ∀ k, (beginScan (withBuffer cfgT [0xD3, 0x01])).scanPos.toNat ≤ k →
          k < (beginScan (withBuffer cfgT [0xD3, 0x01])).bufLen.toNat →
          frameMatch (withBuffer cfgT [0xD3, 0x01]).buf (withBuffer cfgT [0xD3, 0x01]).bufLen.toNat k = false) := by
  refine ⟨rfl, ⟨rfl, by decide, by decide, fun k _ h => absurd h (Nat.not_lt_zero k)⟩, rfl, fun k _ h => ?_⟩
  have h : k < 2 := h
  interval_cases k <;> decide

theorem witness_MatchTestIsTheFourConditions :
    frameMatch (withBuffer cfgT f100).buf (withBuffer cfgT f100).bufLen.toNat 0 = true := by decide

theorem inv_beginScan : (beginScan (withBuffer cfgT f100)).Inv := by constructor <;> decide

theorem witness_ScanNextMakesProgress :
    (beginScan (withBuffer cfgT f100)).Inv ∧ (beginScan (withBuffer cfgT f100)).status.scanActive = true ∧
      ∃ t, exec .scanNext (beginScan (withBuffer cfgT f100)) = .next t ∧ t.status.candValid = true :=
  ⟨inv_beginScan, rfl, _, rfl, rfl⟩

/-- Two states that differ, with the same buffer. -/
theorem witness_ScanDependsOnlyOnTheBuffer :
    (withCandidate cfgT f100).buf = (withBuffer cfgT f100).buf ∧ (withCandidate cfgT f100).bufLen = (withBuffer cfgT f100).bufLen ∧
      (withCandidate cfgT f100).cfg.scanResume = (withBuffer cfgT f100).cfg.scanResume ∧
      withCandidate cfgT f100 ≠ withBuffer cfgT f100 ∧ (∃ t, exec .scanStart (withBuffer cfgT f100) = .next t) ∧
      ∃ t, exec .scanStart (withCandidate cfgT f100) = .next t :=
  ⟨rfl, rfl, rfl, by decide, ⟨_, rfl⟩, ⟨_, rfl⟩⟩

theorem witness_PipelineEndsByItself :
    (withCandidate cfgT f125).Inv ∧ f100.length ≤ (withCandidate cfgT f125).cfg.bufBytesMax :=
  ⟨inv_withCandidate_f125, by decide⟩

theorem witness_DecodeIsInvisibleToTheScan :
    (∃ t, exec .decCand (withCandidate cfgT f100) = .next t) ∧ ∃ u, exec .scanNext (withCandidate cfgT f100) = .next u :=
  ⟨⟨_, rfl⟩, ⟨_, rfl⟩⟩

/-- No candidate; a candidate; a window that ends a byte beyond the buffer, and one that ends at its end. -/
theorem witness_DecodeCommandsDecodeTheirWindow :
    State.reset.status.candValid = false ∧
      ((withCandidate cfgT f100).status.candValid = true ∧
        (withCandidate cfgT f100).candStart.toNat ≤ (withCandidate cfgT f100).bufLen.toNat) ∧
      (withArgs cfgT f100 10 5).bufLen.toNat < (withArgs cfgT f100 10 5).arg0.toNat + (withArgs cfgT f100 10 5).arg1.toNat ∧
      (withArgs cfgT f100 10 4).arg0.toNat + (withArgs cfgT f100 10 4).arg1.toNat ≤ (withArgs cfgT f100 10 4).bufLen.toNat := by
  decide

/-- A window of each short length, with the slots and the offset the decode leaves (L2.6). -/
theorem witness_ShortWindowIsTruncated :
    (∀ l : Word, l.toNat < 5 → (withArgs cfgT f100 0 l).Inv ∧ DecodesWindow .decWin (withArgs cfgT f100 0 l) 0 l) ∧
      [0, 1, 2, 3, 4].map (fun l => (nextOf (exec .decWin (withArgs cfgT f100 0 l))).map fun s => (s.recCount, s.curOff)) =
        [some (0, 0), some (1, 8), some (2, 14), some (3, 24), some (3, 24)] := by
  refine ⟨fun l h => ⟨inv_withArgs l, .inl ⟨rfl, ?_, rfl, rfl⟩⟩, by decide⟩
  change 0 + l.toNat ≤ 14
  omega

theorem witness_UnknownMessageIsSkipped :
    (withCandidate cfgT f125).Inv ∧ DecodesWindow .decCand (withCandidate cfgT f125) 0 7 ∧ 5 ≤ (7#32).toNat ∧
      lookupSchema cfgT.registry (messageBits (withCandidate cfgT f125) 0).toNat = none :=
  ⟨inv_withCandidate_f125, window_f125, by decide, by decide⟩

/-- Six slots where `F100`'s entry needs nine (DV10). -/
theorem witness_OversizedEntryIsAConfigError :
    (withCandidate { cfgT with recMax := 6 } f100).Inv ∧
      DecodesWindow .decCand (withCandidate { cfgT with recMax := 6 } f100) 0 14 ∧ 5 ≤ (14#32).toNat ∧
      ∃ e, lookupSchema regT (messageBits (withCandidate { cfgT with recMax := 6 } f100) 0).toNat = some e ∧
        6 < 4 + (readList { cfgT with recMax := 6 } e).length :=
  ⟨inv_small, window_small, by decide, _, rfl, by decide⟩

/-- The entry of DV3. -/
theorem witness_InvalidDescriptorIsAConfigError :
    (withCandidate cfgT f101).Inv ∧ DecodesWindow .decCand (withCandidate cfgT f101) 0 8 ∧ 5 ≤ (8#32).toNat ∧
      ∃ e it, lookupSchema regT (messageBits (withCandidate cfgT f101) 0).toNat = some e ∧
        4 + (readList cfgT e).length ≤ cfgT.recMax ∧ readList cfgT e = [] ++ it :: [] ∧
        (∀ x ∈ ([] : List ReadItem), codeValid x.desc.code = true) ∧ codeValid it.desc.code = false :=
  ⟨inv_withCandidate_f101, window_f101, by decide, _, _, rfl, by decide, rfl, by simp, by decide⟩

/-- Five bytes of `F100` (L2.6). -/
theorem witness_SchemaReadPastTheWindowIsTruncated :
    (withArgs cfgT f100 0 5).Inv ∧ DecodesWindow .decWin (withArgs cfgT f100 0 5) 0 5 ∧ 5 ≤ (5#32).toNat ∧
      ∃ e, lookupSchema regT (messageBits (withArgs cfgT f100 0 5) 0).toNat = some e ∧
        4 + (readList cfgT e).length ≤ cfgT.recMax ∧ (∀ x ∈ readList cfgT e, codeValid x.desc.code = true) ∧
        8 * (5#32).toNat < totalWidth (slotTypes cfgT e) :=
  ⟨inv_withArgs 5, window_args, by decide, _, rfl, by decide, by decide, by decide⟩

/-- `F100` (DV1). -/
theorem witness_FittingFrameIsARecord :
    (withCandidate cfgT f100).Inv ∧ DecodesWindow .decCand (withCandidate cfgT f100) 0 14 ∧ 5 ≤ (14#32).toNat ∧
      ∃ e, lookupSchema regT (messageBits (withCandidate cfgT f100) 0).toNat = some e ∧
        4 + (readList cfgT e).length ≤ cfgT.recMax ∧ (∀ x ∈ readList cfgT e, codeValid x.desc.code = true) ∧
        totalWidth (slotTypes cfgT e) ≤ 8 * (14#32).toNat :=
  ⟨inv_withCandidate_f100, window_f100, by decide, _, rfl, by decide, by decide, by decide⟩

theorem witness_WrittenSlotsHoldFieldsOthersStay :
    (withArgs cfgT f100 0 5).Inv ∧ DecodesWindow .decWin (withArgs cfgT f100 0 5) 0 5 ∧
      ∃ t, exec .decWin (withArgs cfgT f100 0 5) = .next t := ⟨inv_withArgs 5, window_args, _, rfl⟩

theorem witness_CandidateDecodeEchoesTheHeader :
    (withCandidate cfgT f100).Inv ∧ (withCandidate cfgT f100).status.candValid = true ∧
      ∃ t, exec .decCand (withCandidate cfgT f100) = .next t := ⟨inv_withCandidate_f100, rfl, _, rfl⟩

theorem witness_DecodeFrame :
    ∃ t, exec .decCand (withCandidate cfgT f100) = .next t ∧ t.status.err = none := ⟨_, rfl, rfl⟩

theorem witness_RepeatedDecodeGivesTheSameFrame :
    (withCandidate cfgT f125).Inv ∧ (withCandidate cfgT f125).status.candValid = true ∧
      ∃ t, exec .decCand (withCandidate cfgT f125) = .next t := ⟨inv_withCandidate_f125, rfl, _, rfl⟩

theorem witness_ReadAfterADecodeHasNoCursor :
    (withArgs cfgT f100 0 5).Inv ∧ DecodesWindow .decWin (withArgs cfgT f100 0 5) 0 5 ∧
      ∃ t, exec .decWin (withArgs cfgT f100 0 5) = .next t := ⟨inv_withArgs 5, window_args, _, rfl⟩

/-- `F100`'s entry has header descriptors and content descriptors that are read, also the first and the last of each list. -/
theorem witness_ReadListSkipsOnlyTheFirstDescriptors :
    ∃ e, lookupSchema regT 100 = some e ∧ 1 = (if cfgT.contentSkipFirst then 1 else 0) ∧
      (∃ d, e.header[1]? = some d) ∧ (∃ d, e.header[e.header.length - 1]? = some d) ∧ 1 ≤ e.header.length - 1 ∧
      (∃ d, e.content[1]? = some d) ∧ (∃ d, e.content[e.content.length - 1]? = some d) ∧ 1 ≤ e.content.length - 1 :=
  ⟨_, rfl, by decide, ⟨_, rfl⟩, ⟨_, rfl⟩, by decide, ⟨_, rfl⟩, ⟨_, rfl⟩, by decide⟩

/-- A state with a record: the one after DV6, whose entry is empty. -/
theorem witness_RecordIsTheSlotsWithTheirNames :
    ∃ s, exec .decCand (withCandidate cfgT [0xD3, 0x00, 0x02, 0x06, 0x70, 0x00, 0x00, 0x00]) = .next s ∧ s.FrameInv ∧
      decodedRecord s = some [("header", 211), ("zero", 0), ("length", 2), ("msg_number", 103)] ∧
      (∃ e, s.frInfo.msg = some 103 ∧ lookupSchema s.cfg.registry 103 = some e) ∧
      ∀ p ∈ [("length", (2 : Int))], p.1 ≠ "zero" :=
  ⟨_, rfl, ⟨_, rfl, by decide, by decide, by decide⟩, by decide, ⟨_, rfl, rfl⟩, by decide⟩

theorem witness_PseudoInstructionsExpand :
    (1 ≤ 32 ∧ 32 ≤ 32) ∧ resolveTag "uint08" = 0x00#8 ∧
      (∃ t, exec .scanNext (beginScan (withBuffer cfgT f100)) = .next t ∧ t.status.candValid = true) ∧
      ∃ t, exec .scanNext State.reset = .next t ∧ t.status.candValid = false :=
  ⟨by decide, by decide, ⟨_, rfl, rfl⟩, ⟨_, rfl, rfl⟩⟩

end Sys2Proof.Tests
end

section
/-! PROOF. The machine's invariant (10_state.md R45): what each operation asks for so that it is kept, then that every
command, host action and step keeps it. -/

namespace Sys2Proof.Machine

/-! ## Windows -/

/-- The candidate's clipped window lies in the buffer (41_decoder.md R155). -/
theorem candidateWindow_fits {s : State} (h : s.candStart.toNat ≤ s.bufLen.toNat) :
    s.candStart.toNat + (BitVec.ofNat 32 (candidateWindow s)).toNat ≤ s.bufLen.toNat := by
  have hclip : candidateWindow s ≤ s.bufLen.toNat - s.candStart.toNat := Nat.min_le_right _ _
  have hmod : (BitVec.ofNat 32 (candidateWindow s)).toNat ≤ candidateWindow s := by
    rw [BitVec.toNat_ofNat]
    exact Nat.mod_le _ _
  omega

namespace State.Inv

variable {s t : State}

/-! ## Operations that write nothing the invariant reads -/

theorem raiseError (h : s.Inv) (e : CmdError) : (raiseError e s).Inv := { h with }
theorem completeCommand (h : s.Inv) : (completeCommand s).Inv := { h with }
theorem setResult (h : s.Inv) (signed : Bool) (v : Word) : (setResult signed v s).Inv := { h with }
theorem setArg0 (h : s.Inv) (v : Word) : (setArg0 v s).Inv := { h with }
theorem setArg1 (h : s.Inv) (v : Word) : (setArg1 v s).Inv := { h with }
theorem setQueue (h : s.Inv) (q : List HostAction) : (setQueue q s).Inv := { h with }
theorem pushReply (h : s.Inv) (v : Word) : (pushReply v s).Inv := { h with }

/-! ## The cursor (R25, R26) -/

theorem openCursor (h : s.Inv) {ws wl : Word} (fits : ws.toNat + wl.toNat ≤ s.bufLen.toNat) :
    (openCursor ws wl s).Inv :=
  { h with
    window := fun _ => fits
    windowSize := Nat.le_trans fits h.bufSize
    cursor := Nat.zero_le _ }

theorem closeCursor (h : s.Inv) : (closeCursor s).Inv := { h with window := nofun }

theorem advanceCursor (h : s.Inv) {w : Nat} (range : s.curOff.toNat + w ≤ 8 * s.winLen.toNat) :
    (advanceCursor w s).Inv :=
  { h with
    cursor := by
      rw [advanceCursor_curOff, BitVec.toNat_ofNat]
      exact Nat.le_trans (Nat.mod_le _ _) range }

/-! ## The scan (R23, R35) -/

theorem beginScan (h : s.Inv) : (beginScan s).Inv :=
  { h with
    candidate := nofun
    scanDone := nofun
    scanBound := fun _ => Nat.zero_le _ }

/-- The buffer is small enough for every index of a scan to fit a register without wrapping (R9, R38). -/
theorem bufLen_le (h : s.Inv) : s.bufLen.toNat ≤ 2 ^ 29 - 1 :=
  Nat.le_trans h.bufSize (configWf_bounds h.config).2.1

/-- A candidate is found only in a scan that is not done: a scan that is done is past the buffer. -/
theorem takeCandidate (h : s.Inv) {i : Nat} (active : s.status.scanActive = true) (found : nextCandidate s = some i) :
    (takeCandidate i s).Inv := by
  obtain ⟨hpos, hin, hmatch, -, -⟩ := nextCandidate_eq_some found
  have hbuf := h.bufLen_le
  have hlen := frameLength_le s.buf i
  have hnext := (resumeIndex_bounds s.cfg.scanResume i (frameLength s.buf i)).2
  have hstart : (BitVec.ofNat 32 i).toNat = i := Nat.mod_eq_of_lt (by omega)
  have hcandLen : (BitVec.ofNat 32 (frameLength s.buf i)).toNat = frameLength s.buf i := Nat.mod_eq_of_lt (by omega)
  have hspan : (BitVec.ofNat 32 (frameLength s.buf i + 6)).toNat = frameLength s.buf i + 6 := Nat.mod_eq_of_lt (by omega)
  exact
    { h with
      candidate := fun _ => by
        simpa only [Machine.takeCandidate, setCandidate_frame, setCandidate_candStart, setCandidate_candLen,
          setCandidate_candSpan, hstart, hcandLen, hspan, and_true] using And.intro active hmatch
      candLenBits := Nat.le_trans (Nat.le_of_eq hcandLen) hlen
      scanDone := fun hdone => by
        obtain ⟨-, -, hpast⟩ := h.scanDone hdone
        omega
      scanBound := fun _ => by
        simp only [Machine.takeCandidate, setCandidate_frame, setCandidate_scanPos, BitVec.toNat_ofNat]
        exact Nat.le_trans (Nat.mod_le _ _) (by omega) }

theorem endScan (h : s.Inv) (active : s.status.scanActive = true) :
    (endScan (max s.scanPos.toNat s.bufLen.toNat) s).Inv := by
  have hbound := h.scanBound active
  have hbuf := h.bufLen_le
  have hpos : (BitVec.ofNat 32 (max s.scanPos.toNat s.bufLen.toNat)).toNat = max s.scanPos.toNat s.bufLen.toNat :=
    Nat.mod_eq_of_lt (by omega)
  exact
    { h with
      candidate := nofun
      scanDone := fun _ => ⟨active, rfl, by simp only [endScan_frame, endScan_scanPos, hpos]; omega⟩
      scanBound := fun _ => by simp only [endScan_frame, endScan_scanPos, hpos]; omega }

/-! ## The load (20_memory.md R63) -/

/-- The cursor, the scan and the candidate end with a load, so only the bounds of the new buffer are to be shown. -/
theorem loadBuffer (h : s.Inv) {bytes : List Byte} (fits : bytes.length ≤ s.cfg.bufBytesMax) :
    (loadBuffer bytes s).Inv := by
  have hmax := (configWf_bounds h.config).2.1
  have hlen : (BitVec.ofNat 32 bytes.length).toNat = bytes.length := Nat.mod_eq_of_lt (by omega)
  exact
    { h with
      bufCanonical := Memory.wf_ofBytes bytes
      bufBelow := by rw [loadBuffer_bufLen, loadBuffer_buf, hlen]; exact Memory.below_ofBytes bytes
      bufSize := by rw [loadBuffer_bufLen, hlen]; exact fits
      window := nofun
      candidate := nofun
      scanDone := nofun
      scanBound := nofun }

/-! ## The decode (41_decoder.md R141 to R150) -/

/-- A decode of a window in the buffer ends in one of the outcomes of R154. -/
theorem decodeOutcome (h : s.Inv) {ws wl : Word} (fits : ws.toNat + wl.toNat ≤ s.bufLen.toNat)
    (run : decodeWindow ws wl s = .next t) : DecodeOutcome s t ws wl := by
  obtain ⟨u, hu, outcome⟩ := decodeWindow_outcome (h.ready fits)
  exact next_inj.1 (hu.symm.trans run) ▸ outcome

/-- A decode of a window in the buffer leaves the buffer and the scan, and keeps its own registers in their bounds. -/
theorem of_decodeWindow (h : s.Inv) {ws wl : Word} (fits : ws.toNat + wl.toNat ≤ s.bufLen.toNat)
    (run : decodeWindow ws wl s = .next t) : t.Inv := by
  obtain ⟨hcount, hslots, hoff⟩ := (h.decodeOutcome fits run).bounds (h.ready fits)
  obtain ⟨hcfg, hbuf, hlen, -, -, -, hpos, hstart, hclen, hspan, -, -, -, hactive, hdone, hvalid, -, hcur, -, hws, hwl⟩ :=
    decodeWindow_frame run
  constructor
  case config => rw [hcfg]; exact h.config
  case bufCanonical => rw [hbuf]; exact h.bufCanonical
  case bufBelow => rw [hbuf, hlen]; exact h.bufBelow
  case bufSize => rw [hlen, hcfg]; exact h.bufSize
  case window => simp [hcur]
  case windowSize => rw [hws, hwl, hcfg]; exact Nat.le_trans fits h.bufSize
  case cursor => rw [hwl]; exact hoff
  case candidate => rw [hvalid, hactive, hbuf, hlen, hstart, hclen, hspan]; exact h.candidate
  case candLenBits => rw [hclen]; exact h.candLenBits
  case scanDone => rw [hdone, hactive, hvalid, hlen, hpos]; exact h.scanDone
  case scanBound => rw [hactive, hpos, hlen]; exact h.scanBound
  case recCount => rw [hcfg]; exact hcount
  case recSlots => rw [hslots, hcfg]; exact h.recSlots

/-! ## Commands, host actions, steps -/

theorem of_commandEnds (h : s.Inv) {i : Instr} (ends : CommandEnds s t i) : t.Inv := by
  cases ends with
  | raised _ e _ ht => exact ht ▸ h.raiseError e
  | nop ht => exact ht ▸ h.completeCommand
  | opened fits ht => exact ht ▸ (h.openCursor fits).completeCommand
  | read _ signed w v _ _ range ht => exact ht ▸ ((h.setResult signed v).advanceCursor range).completeCommand
  | readPast _ _ _ _ _ ht => exact ht ▸ h.closeCursor.raiseError .outOfRange
  | cleared ht => exact ht ▸ h.closeCursor.completeCommand
  | scanStarted ht => exact ht ▸ h.beginScan.completeCommand
  | candidate _ active found ht => exact ht ▸ (h.takeCandidate active found).completeCommand
  | scanEnded active _ ht => exact ht ▸ (h.endScan active).completeCommand
  | decodedCandidate _ inside run => exact h.of_decodeWindow (candidateWindow_fits inside) run
  | decodedWindow fits run => exact h.of_decodeWindow fits run

theorem of_actEnds (h : s.Inv) {a : HostAction} (ends : ActEnds s t a) : t.Inv := by
  cases ends with
  | illegal _ _ _ ht => exact ht ▸ h.raiseError .illegalCmd
  | command _ _ _ ran => exact h.of_commandEnds (exec_ends ran)
  | operand0 v ht => exact ht ▸ h.setArg0 v
  | operand1 v ht => exact ht ▸ h.setArg1 v
  | ignored _ _ _ ht => exact ht ▸ h
  | replied idx ht => exact ht ▸ h.pushReply (hostRead idx s)
  | loaded _ fits ht => exact ht ▸ h.loadBuffer fits

theorem of_step (h : s.Inv) (run : step s = .next t) : t.Inv := by
  rcases step_ends run with ⟨-, rfl⟩ | ⟨a, q, -, ends⟩
  · exact h
  · exact (h.setQueue q).of_actEnds ends

end State.Inv

/-- Settles O26: a step is idle or performs a host action, and each of these keeps the invariant. -/
theorem stepKeepsTheInvariant : Obligations.StepKeepsTheInvariant :=
  fun _ _ h run => h.of_step run

end Sys2Proof.Machine
end

section
/-! PROOF. The registers only a decode writes: the record, the frame registers and the counters (10_state.md R28, R29, R33,
R36). A command is an accepted decode or keeps all of them, which gives the frame invariant, the counters and the
decode's own frame. -/

namespace Sys2Proof.Machine

/-! ## Who writes them -/

/-- `t` has the parameters, record, frame registers and counters of `s`. -/
structure KeepsRecord (s t : State) : Prop where
  cfg : t.cfg = s.cfg
  frInfo : t.frInfo = s.frInfo
  frErr : t.frErr = s.frErr
  recCount : t.recCount = s.recCount
  recVal : t.recVal = s.recVal
  cntRec : t.cntRec = s.cntRec
  cntSkip : t.cntSkip = s.cntSkip
  cntCfg : t.cntCfg = s.cntCfg
  cntTrunc : t.cntTrunc = s.cntTrunc

/-- `t` is the state after a decode of some window of the buffer of `s`. -/
def Decodes (s t : State) : Prop :=
  ∃ ws wl : Word, ws.toNat + wl.toNat ≤ s.bufLen.toNat ∧ decodeWindow ws wl s = .next t

/-- A command is a decode command that raises no error and decodes, or it is not and keeps the record. -/
theorem CommandEnds.decodes_or_keepsRecord {s t : State} {i : Instr} (h : CommandEnds s t i) :
    (((i = .decCand ∨ i = .decWin) ∧ t.status.err = none) ∧ Decodes s t) ∨
    (¬((i = .decCand ∨ i = .decWin) ∧ t.status.err = none) ∧ KeepsRecord s t) := by
  cases h with
  | raised _ e _ ht => exact .inr ⟨by simp [ht], by constructor <;> simp [ht]⟩
  | nop ht => exact .inr ⟨by simp, by constructor <;> simp [ht]⟩
  | opened _ ht => exact .inr ⟨by simp, by constructor <;> simp [ht]⟩
  | read _ signed _ _ hi _ _ ht => exact .inr ⟨by cases signed <;> simp [hi], by constructor <;> simp [ht]⟩
  | readPast _ _ _ _ _ ht => exact .inr ⟨by simp [ht], by constructor <;> simp [ht]⟩
  | cleared ht => exact .inr ⟨by simp, by constructor <;> simp [ht]⟩
  | scanStarted ht => exact .inr ⟨by simp, by constructor <;> simp [ht]⟩
  | candidate _ _ _ ht => exact .inr ⟨by simp, by constructor <;> simp [ht, takeCandidate]⟩
  | scanEnded _ _ ht => exact .inr ⟨by simp, by constructor <;> simp [ht]⟩
  | decodedCandidate _ inside run =>
    exact .inl ⟨⟨.inl rfl, by simp [decodeWindow_frame run]⟩, _, _, candidateWindow_fits inside, run⟩
  | decodedWindow fits run => exact .inl ⟨⟨.inr rfl, by simp [decodeWindow_frame run]⟩, _, _, fits, run⟩

/-- A decode command that raises no error decodes. -/
theorem CommandEnds.decodes {s t : State} {i : Instr} (h : CommandEnds s t i) (hi : i = .decCand ∨ i = .decWin)
    (herr : t.status.err = none) : Decodes s t := by
  rcases h.decodes_or_keepsRecord with ⟨-, hd⟩ | ⟨hno, -⟩
  · exact hd
  · exact absurd ⟨hi, herr⟩ hno

/-- Any other command, and a decode command that raises an error, keeps the record. -/
theorem CommandEnds.keepsRecord {s t : State} {i : Instr} (h : CommandEnds s t i)
    (hno : (i ≠ .decCand ∧ i ≠ .decWin) ∨ t.status.err ≠ none) : KeepsRecord s t := by
  rcases h.decodes_or_keepsRecord with ⟨⟨hi, herr⟩, -⟩ | ⟨-, keeps⟩
  · rcases hno with ⟨hcand, hwin⟩ | hne
    · exact (hi.elim hcand hwin).elim
    · exact absurd herr hne
  · exact keeps

/-- A host action decodes, or it keeps the record. -/
theorem ActEnds.decodes_or_keepsRecord {s t : State} {a : HostAction} (h : ActEnds s t a) :
    Decodes s t ∨ KeepsRecord s t := by
  cases h with
  | illegal _ _ _ ht => exact .inr (by constructor <;> simp [ht])
  | command _ _ _ ran => exact (exec_ends ran).decodes_or_keepsRecord.imp And.right And.right
  | operand0 _ ht => exact .inr (by constructor <;> simp [ht])
  | operand1 _ ht => exact .inr (by constructor <;> simp [ht])
  | ignored _ _ _ ht => exact .inr (by constructor <;> simp [ht])
  | replied _ ht => exact .inr (by constructor <;> simp [ht])
  | loaded _ _ ht => exact .inr (by constructor <;> simp [ht])

/-! ## The frame invariant -/

/-- The frame invariant speaks only of the registers a decode writes. -/
theorem State.FrameInv.of_keepsRecord {s t : State} (h : s.FrameInv) (keeps : KeepsRecord s t) : t.FrameInv := by
  simpa only [State.FrameInv, recSlot, keeps.cfg, keeps.frInfo, keeps.frErr, keeps.recCount, keeps.recVal] using h

/-- The fourth field of a frame is its identifier, zero-extended (41_decoder.md R140, R143). -/
theorem fieldSlot_fixedFields_three (s : State) (ws : Word) :
    fieldSlot s.buf ws.toNat fixedFields 3 = (messageBits s ws).setWidth 32 := by
  have hlt : extract s.buf ws.toNat 24 12 < 2 ^ 12 := extract_lt _ _ _ _
  have hslot : fieldSlot s.buf ws.toNat fixedFields 3 = BitVec.ofNat 32 (extract s.buf ws.toNat 24 12) := rfl
  apply BitVec.eq_of_toNat_eq
  rw [hslot, messageBits, BitVec.toNat_setWidth, BitVec.toNat_ofNat, BitVec.toNat_ofNat, Nat.mod_eq_of_lt hlt]

/-- After a decode that read the identifier, slot 3 holds it, whatever schema fields follow. -/
theorem Decoded.messageSlot {s t : State} {ws : Word} {gs : List FieldType} {n : Nat}
    (h : Decoded s t ws (fixedFields ++ gs) n) (hn : 4 ≤ n) : recSlot 3 t = (messageBits s ws).setWidth 32 := by
  rw [h.slots 3 hn, fieldSlot_append_left (by decide), fieldSlot_fixedFields_three]

/-- Each outcome of a decode leaves the frame registers its rule gives it (41_decoder.md R143 to R150). -/
theorem DecodeOutcome.frameInv {s t : State} {ws wl : Word} (hcfg : t.cfg = s.cfg) (h : DecodeOutcome s t ws wl) :
    t.FrameInv := by
  cases h with
  | shortWindow j _ few _ _ info err decoded =>
    simp only [State.FrameInv, info]
    exact ⟨decoded.recCount ▸ few, err⟩
  | skipped _ absent info err decoded =>
    simp only [State.FrameInv, info, hcfg]
    exact ⟨absent, Decoded.messageSlot (gs := []) decoded (Nat.le_refl 4), BitVec.eq_of_toNat_eq decoded.recCount, err⟩
  | oversized e _ found size info err decoded =>
    simp only [State.FrameInv, info, hcfg]
    exact ⟨e, found, decoded.messageSlot (Nat.le_refl 4), BitVec.eq_of_toNat_eq decoded.recCount, .inl ⟨size, err⟩⟩
  | badTag e it _ found size first info err decoded =>
    simp only [State.FrameInv, info, hcfg]
    exact ⟨e, found, decoded.messageSlot (Nat.le_refl 4), BitVec.eq_of_toNat_eq decoded.recCount,
      .inr ⟨size, it, first, err⟩⟩
  | truncated e j _ found _ _ few _ _ info err decoded =>
    simp only [State.FrameInv, info, hcfg]
    exact ⟨e, found, decoded.messageSlot (Nat.le_add_right 4 j), by rw [decoded.recCount]; omega,
      by rw [decoded.recCount]; omega, err⟩
  | recorded e _ found _ _ _ info err decoded =>
    simp only [State.FrameInv, info, hcfg]
    exact ⟨e, found, decoded.messageSlot (Nat.le_add_right 4 _), decoded.recCount, err⟩

/-- A decode from a state with legal registers establishes the frame invariant, whatever held before. -/
theorem Decodes.frameInv {s t : State} (hs : s.Inv) (h : Decodes s t) : t.FrameInv := by
  obtain ⟨ws, wl, fits, run⟩ := h
  obtain ⟨hcfg, -⟩ := decodeWindow_frame run
  exact (hs.decodeOutcome fits run).frameInv hcfg

/-- Settles O27: a step decodes, which establishes the frame invariant, or keeps the registers it speaks of. -/
theorem stepKeepsTheFrameInvariant : Obligations.StepKeepsTheFrameInvariant := by
  intro s t hs hf run
  rcases step_ends run with ⟨-, rfl⟩ | ⟨a, q, -, ends⟩
  · exact hf
  · rcases ends.decodes_or_keepsRecord with hd | hk
    · exact hd.frameInv (hs.setQueue q)
    · have hq : KeepsRecord s (setQueue q s) := by constructor <;> simp
      exact (hf.of_keepsRecord hq).of_keepsRecord hk

/-! ## Counters and the decode's frame -/

/-- Settles O22: an accepted decode counts its outcome, and every other command keeps the counters. -/
theorem countersCountTheOutcomes : Obligations.CountersCountTheOutcomes := by
  intro i s t run
  constructor
  · intro hi herr
    obtain ⟨ws, wl, -, hd⟩ := (exec_ends run).decodes hi herr
    obtain ⟨o, ho, hrec, hskip, hcfg, htrunc⟩ := decodeWindow_counts hd
    refine ⟨o, ho, ?_⟩
    rw [hrec, hskip, hcfg, htrunc]
    cases o <;> simp
  · intro hno
    have keeps := (exec_ends run).keepsRecord hno
    exact ⟨keeps.cntRec, keeps.cntSkip, keeps.cntCfg, keeps.cntTrunc⟩

/-- Settles O55: a decode command without error is a decode of a window, and this is that decode's frame. -/
theorem decodeFrame : Obligations.DecodeFrame := by
  intro i s t hi run herr
  obtain ⟨ws, wl, -, hd⟩ := (exec_ends run).decodes hi herr
  obtain ⟨hcfg, hbuf, hlen, harg0, harg1, hresult, hpos, hstart, hclen, hspan, -, -, hsticky, hactive, hdone, hvalid,
    hsigned, -, -, -, -⟩ := decodeWindow_frame hd
  exact ⟨hresult, hsigned, harg0, harg1, hpos, hstart, hclen, hspan, hactive, hdone, hvalid, hsticky, hlen,
    fun a => by rw [hbuf], hcfg⟩

end Sys2Proof.Machine
end

section
/-! PROOF. The host's view of the registers (10_state.md R24, R40 to R43), the layout of the three field registers (R27 to
R29), and the state after reset (R44). -/

namespace Sys2Proof.Machine

/-! ## The register map -/

/-- A write to an index that is none of `CMD`, `ARG0` and `ARG1` has no effect (R42, R43). -/
theorem hostWrite_other {idx : BitVec 12} (v : Word) (s : State) (hcmd : idx.toNat ≠ 0x000) (harg0 : idx.toNat ≠ 0x003)
    (harg1 : idx.toNat ≠ 0x004) : hostWrite idx v s = .next s := by
  rw [Ne, ← registerAt_eq_cmd (n := s.cfg.recMax)] at hcmd
  rw [Ne, ← registerAt_eq_arg0 (n := s.cfg.recMax)] at harg0
  rw [Ne, ← registerAt_eq_arg1 (n := s.cfg.recMax)] at harg1
  unfold hostWrite
  split
  next h => exact absurd h hcmd
  next h => exact absurd h harg0
  next h => exact absurd h harg1
  · rfl

/-- A reserved index reads 0 (R42). -/
theorem hostRead_reserved {idx : BitVec 12} {s : State}
    (h : 0x015 ≤ idx.toNat ∧ idx.toNat ≤ 0x0FF ∨ 0x100 + s.cfg.recMax ≤ idx.toNat) : hostRead idx s = 0 := by
  rw [hostRead, registerAt_reserved h, readRegister]

/-- Index `0x100 + k` reads record slot `k` (R24). -/
theorem hostRead_recVal {idx : BitVec 12} {k : Nat} {s : State} (hk : k < s.cfg.recMax) (h : idx.toNat = 0x100 + k) :
    hostRead idx s = recSlot k s := by
  rw [hostRead, h, registerAt_recVal hk, readRegister]

/-- Settles O12: the two operands are stored, and every index that is not theirs or `CMD`'s ignores the write. -/
theorem hostWriteStoresOnlyTheOperands : Obligations.HostWriteStoresOnlyTheOperands := by
  intro s idx v
  exact ⟨rfl, rfl, fun h => hostWrite_other v s (by omega) (by omega) (by omega), rfl, hostRead_reserved⟩

/-- Settles O13: the named registers by the map's own rows, the slots by `hostRead_recVal`. -/
theorem hostReadReturnsTheMappedRegister : Obligations.HostReadReturnsTheMappedRegister := by
  intro s
  refine ⟨rfl, rfl, rfl, rfl, rfl, rfl, rfl, rfl, rfl, rfl, rfl, rfl, rfl, rfl, rfl, rfl, rfl, rfl, rfl, rfl, ?_⟩
  exact fun _ _ hk h => hostRead_recVal hk h

/-! ## The layout of `STATUS`, `FR_INFO` and `FR_ERR` -/

theorem errCode_le (e : Option CmdError) : errCode e ≤ 6 := by
  rcases e with - | e
  · decide
  · cases e <;> decide

theorem outcomeCode_le (o : Option FrameOutcome) : outcomeCode o ≤ 4 := by
  rcases o with - | o
  · decide
  · cases o <;> decide

theorem DescList.code_le (l : DescList) : l.code ≤ 1 := by cases l <;> decide

theorem CfgReason.code_le (r : CfgReason) : r.code ≤ 1 := by cases r <;> decide

/-- `ERR` takes four bits of `STATUS` and each flag one, so no field carries into the next (R27). -/
theorem Status.word_fields (t : Status) :
    bitField t.word 3 0 = errCode t.err ∧ bitField t.word 4 4 = t.errSticky.toNat ∧
    bitField t.word 5 5 = t.curValid.toNat ∧ bitField t.word 6 6 = t.scanActive.toNat ∧
    bitField t.word 7 7 = t.scanDone.toNat ∧ bitField t.word 8 8 = t.candValid.toNat ∧
    bitField t.word 9 9 = t.resSigned.toNat ∧ bitField t.word 31 10 = 0 := by
  have herr := errCode_le t.err
  have hsticky := t.errSticky.toNat_le
  have hcur := t.curValid.toNat_le
  have hactive := t.scanActive.toNat_le
  have hdone := t.scanDone.toNat_le
  have hcand := t.candValid.toNat_le
  have hsigned := t.resSigned.toNat_le
  simp only [bitField, Status.word, BitVec.toNat_ofNat]
  and_intros <;> omega

/-- `FR_INFO` with its two ways to hold an identifier as one: `MSG_VALID` and `MSG`, which is 0 without one (R28). -/
theorem FrInfo.word_eq (f : FrInfo) :
    f.word = BitVec.ofNat 32
      (outcomeCode f.outcome + (2 ^ 3 * f.msg.isSome.toNat + 2 ^ 4 * (f.msg.map BitVec.toNat).getD 0)) := by
  rcases f with ⟨o, - | id⟩ <;> rfl

theorem FrInfo.word_fields (f : FrInfo) :
    bitField f.word 2 0 = outcomeCode f.outcome ∧ bitField f.word 3 3 = f.msg.isSome.toNat ∧
    bitField f.word 15 4 = (f.msg.map BitVec.toNat).getD 0 ∧ bitField f.word 31 16 = 0 := by
  have hout := outcomeCode_le f.outcome
  have hvalid := f.msg.isSome.toNat_le
  have hmsg : (f.msg.map BitVec.toNat).getD 0 < 2 ^ 12 := by
    cases f.msg with
    | none => decide
    | some id => exact id.isLt
  simp only [bitField, f.word_eq, BitVec.toNat_ofNat]
  and_intros <;> omega

theorem FrErr.word_fields (f : FrErr) :
    bitField f.word 15 0 = f.idx.toNat ∧ bitField f.word 16 16 = f.list.code ∧
    bitField f.word 17 17 = f.reason.code ∧ bitField f.word 31 18 = 0 := by
  have hidx := f.idx.isLt
  have hlist := f.list.code_le
  have hreason := f.reason.code_le
  simp only [bitField, FrErr.word, BitVec.toNat_ofNat]
  and_intros <;> omega

/-- Settles O14: the fields of each register, and the code tables by evaluation. -/
theorem statusAndFrameWordsHoldTheirFields : Obligations.StatusAndFrameWordsHoldTheirFields :=
  ⟨Status.word_fields, by decide, FrInfo.word_fields, by decide, FrErr.word_fields⟩

/-! ## The host's actions -/

/-- Settles O11: a step is the action at the queue's head, and a read does not see the queue. -/
theorem stepPerformsTheHostsNextAction : Obligations.StepPerformsTheHostsNextAction := by
  intro s q
  refine ⟨fun idx v h => ?_, fun idx h => ?_, fun bytes h => ?_⟩
  · rw [step, h]
    rfl
  · rw [← hostRead_setQueue idx q s, step, h]
    rfl
  · rw [step, h]
    rfl

/-! ## Reset -/

/-- Every record slot is 0 after reset, and so is one beyond the last (R44). -/
theorem recSlot_resetWith (k : Nat) (c : Config) : recSlot k (State.resetWith c) = 0 := by
  rw [recSlot, State.resetWith, List.getD_eq_getElem?_getD, List.getElem?_replicate]
  split <;> rfl

/-- Settles O23: the slots by `recSlot_resetWith`, every other value by the definition of reset. -/
theorem resetValues : Obligations.ResetValues := by
  intro c
  refine ⟨fun _ => rfl, rfl, rfl, rfl, rfl, rfl, rfl, rfl, rfl, rfl, rfl, rfl, rfl, rfl, rfl, rfl, rfl, rfl, rfl, rfl, rfl, ?_, ?_,
    rfl, rfl⟩
  · exact List.length_replicate
  · exact fun k => recSlot_resetWith k c

/-- After reset every flag is 0, so the invariant asks only for the bounds, which 0 meets. -/
theorem State.Inv.resetWith {c : Config} (h : configWf c = true) : (State.resetWith c).Inv where
  config := h
  bufCanonical := rfl
  bufBelow := rfl
  bufSize := Nat.zero_le _
  window := nofun
  windowSize := Nat.zero_le _
  cursor := Nat.zero_le _
  candidate := nofun
  candLenBits := Nat.zero_le _
  scanDone := nofun
  scanBound := nofun
  recCount := Nat.zero_le _
  recSlots := List.length_replicate

theorem State.FrameInv.resetWith (c : Config) : (State.resetWith c).FrameInv := ⟨rfl, rfl, rfl⟩

/-- Settles O24: all of the state is 0 but the parameters, which are legal by hypothesis. -/
theorem resetMeetsTheInvariants : Obligations.ResetMeetsTheInvariants :=
  fun c h => ⟨State.Inv.resetWith h, State.FrameInv.resetWith c⟩

end Sys2Proof.Machine
end

section
/-! PROOF. Who writes the buffer (20_memory.md R62, R63): a load replaces it, and every other action, the commands among them,
leaves it. -/

namespace Sys2Proof.Machine

/-- Settles O15: the canonical buffer of the bytes loaded reads as them. -/
theorem loadReplacesTheBuffer : Obligations.LoadReplacesTheBuffer := by
  intro s bytes
  constructor
  · intro fits
    refine ⟨Memory.ofBytes bytes, Memory.wf_ofBytes bytes, fun a _ => Memory.get_ofBytes bytes a, ?_⟩
    rw [hostLoad, if_neg (Nat.not_lt.2 fits), loadBuffer]
  · intro long
    rw [hostLoad, if_pos long]

/-- `t` has the parameters, the buffer, the operands and the host's side of `s`. -/
structure KeepsInputs (s t : State) : Prop where
  cfg : t.cfg = s.cfg
  buf : t.buf = s.buf
  bufLen : t.bufLen = s.bufLen
  arg0 : t.arg0 = s.arg0
  arg1 : t.arg1 = s.arg1
  hostQueue : t.hostQueue = s.hostQueue
  replies : t.replies = s.replies

theorem keepsInputs_of_decodeWindow {ws wl : Word} {s t : State} (run : decodeWindow ws wl s = .next t) :
    KeepsInputs s t := by
  constructor <;> simp [decodeWindow_frame run]

/-- However a command ends, it wrote only registers of its results. -/
theorem CommandEnds.keepsInputs {s t : State} {i : Instr} (h : CommandEnds s t i) : KeepsInputs s t := by
  cases h with
  | raised _ _ _ ht => constructor <;> simp [ht]
  | nop ht => constructor <;> simp [ht]
  | opened _ ht => constructor <;> simp [ht]
  | read _ _ _ _ _ _ _ ht => constructor <;> simp [ht]
  | readPast _ _ _ _ _ ht => constructor <;> simp [ht]
  | cleared ht => constructor <;> simp [ht]
  | scanStarted ht => constructor <;> simp [ht]
  | candidate _ _ _ ht => constructor <;> simp [ht, takeCandidate]
  | scanEnded _ _ ht => constructor <;> simp [ht]
  | decodedCandidate _ _ run => exact keepsInputs_of_decodeWindow run
  | decodedWindow _ run => exact keepsInputs_of_decodeWindow run

/-- Settles O17: a command keeps the inputs, however it ends. -/
theorem commandsLeaveBufferAndOperands : Obligations.CommandsLeaveBufferAndOperands := by
  intro i s t run
  obtain ⟨cfg, buf, bufLen, arg0, arg1, queue, replies⟩ := (exec_ends run).keepsInputs
  exact ⟨fun a => by rw [buf], buf, bufLen, arg0, arg1, cfg, queue, replies⟩

/-- A host action keeps the parameters, and it is a load or keeps the buffer. -/
theorem ActEnds.load_or_keepsBuffer {s t : State} {a : HostAction} (h : ActEnds s t a) :
    t.cfg = s.cfg ∧ ((∃ bytes, a = .load bytes) ∨ t.bufLen = s.bufLen ∧ t.buf = s.buf) := by
  cases h with
  | illegal _ _ _ ht => simp [ht]
  | command _ _ _ ran =>
    have keeps := (exec_ends ran).keepsInputs
    exact ⟨keeps.cfg, .inr ⟨keeps.bufLen, keeps.buf⟩⟩
  | operand0 _ ht => simp [ht]
  | operand1 _ ht => simp [ht]
  | ignored _ _ _ ht => simp [ht]
  | replied _ ht => simp [ht]
  | loaded bytes _ ht => exact ⟨by simp [ht], .inl ⟨bytes, rfl⟩⟩

/-- Settles O18: an action that is no load keeps the buffer, and every action the parameters. -/
theorem onlyALoadChangesTheBuffer : Obligations.OnlyALoadChangesTheBuffer := by
  intro a s t run
  obtain ⟨hcfg, ⟨bytes, hload⟩ | ⟨hlen, hbuf⟩⟩ := (hostAct_ends run).load_or_keepsBuffer
  · exact ⟨hcfg, fun other => absurd hload (other bytes)⟩
  · exact ⟨hcfg, fun _ => ⟨hlen, hbuf, fun n => by rw [hbuf]⟩⟩

end Sys2Proof.Machine
end

section
/-! PROOF. The bytes and bits of a read (20_memory.md R67, R69; 40_cursor.md R118, R119). -/

namespace Sys2Proof.Machine

/-! ## The bytes of a read (R69) -/

theorem streamBit_congr {m m' : Memory} {ws p : Nat} (h : m.get (ws + p / 8) = m'.get (ws + p / 8)) :
    streamBit m ws p = streamBit m' ws p := by
  rw [streamBit, streamBit, h]

/-- Bit `k` of a read lies in one of the bytes the read touches. -/
theorem byte_of_bit_touched {o w k : Nat} (hk : k < w) : o / 8 ≤ (o + k) / 8 ∧ (o + k) / 8 < o / 8 + bytesTouched o w := by
  unfold bytesTouched
  omega

/-- Every byte a read touches holds one of its bits: the byte's first bit, or the read's first bit in its first byte. -/
theorem exists_bit_of_byte {o w j : Nat} (hw : 1 ≤ w) (hj : j < bytesTouched o w) : ∃ k < w, (o + k) / 8 = o / 8 + j := by
  unfold bytesTouched at hj
  exact ⟨8 * j - o % 8, by omega, by omega⟩

/-- A read is determined by the bytes it touches. -/
theorem extract_congr_bytes {m m' : Memory} {ws o w : Nat}
    (h : ∀ a, ws + o / 8 ≤ a → a < ws + o / 8 + bytesTouched o w → m.get a = m'.get a) :
    extract m ws o w = extract m' ws o w := by
  apply extract_congr
  intro k hk
  obtain ⟨hlo, hhi⟩ := byte_of_bit_touched (o := o) hk
  exact streamBit_congr (h _ (by omega) (by omega))

/-- A read sees each byte it touches: 0xFF there makes the field of a memory of zeros positive. -/
theorem extract_ff_pos {ws o w j : Nat} (hw : 1 ≤ w) (hj : j < bytesTouched o w) :
    0 < extract [⟨ws + o / 8 + j, 0xFF⟩] ws o w := by
  obtain ⟨k, hk, hbyte⟩ := exists_bit_of_byte hw hj
  rw [Nat.add_assoc, ← hbyte]
  exact extract_pos hk (streamBit_ff ws (o + k))

/-- Settles O35: the touched bytes determine the field, each of them counts, and their number is arithmetic. -/
theorem readsTouchAtMostFiveBytes : Obligations.ReadsTouchAtMostFiveBytes := by
  intro ws o w hw hmax
  refine ⟨fun m m' => extract_congr_bytes, fun j hj => ?_, ?_⟩
  · rw [extract_nil]
    exact Nat.ne_of_gt (extract_ff_pos hw hj)
  · unfold bytesTouched
    omega

/-! ## Reads through a cursor whose window lies in the buffer (40_cursor.md R118, R119) -/

/-- A read in range completes with its field. -/
theorem readField_value {s : State} {w : Nat} (signed : Bool) (hw : 1 ≤ w) (valid : s.status.curValid = true)
    (window : s.winStart.toNat + s.winLen.toNat ≤ s.bufLen.toNat) (range : s.curOff.toNat + w ≤ 8 * s.winLen.toNat) :
    readField signed w s = .next (completeCommand (advanceCursor w
      (setResult signed (fieldPattern signed w (extract s.buf s.winStart.toNat s.curOff.toNat w)) s))) := by
  simp only [readField, valid, if_true, readBits_value hw window range]

/-- A read past the window ends the cursor. -/
theorem readField_past {s : State} {w : Nat} (signed : Bool) (valid : s.status.curValid = true)
    (range : 8 * s.winLen.toNat < s.curOff.toNat + w) :
    readField signed w s = .next (raiseError .outOfRange (closeCursor s)) := by
  simp only [readField, valid, if_true, readBits_past range]

theorem readField_noCursor {s : State} (signed : Bool) (w : Nat) (valid : s.status.curValid = false) :
    readField signed w s = .next (raiseError .noCursor s) := by
  simp only [readField, valid, Bool.false_eq_true, if_false]

/-! ## Consecutive reads (R67) -/

/-- An unsigned field of at most 32 bits is held in `RESULT` as it is. -/
theorem toNat_fieldPattern_unsigned (m : Memory) (ws o : Nat) {w : Nat} (hw : w ≤ 32) :
    (fieldPattern false w (extract m ws o w)).toNat = extract m ws o w := by
  have hlt : extract m ws o w < 2 ^ 32 := Nat.lt_of_lt_of_le (extract_lt m ws o w) (Nat.pow_le_pow_right (by decide) hw)
  exact Nat.mod_eq_of_lt hlt

/-- `rd.u w` within a window of the buffer completes: its field stands in `RESULT`, the cursor is `w` bits on, and the buffer,
the window and the cursor's validity are as before. -/
theorem exec_rdU_inRange {s : State} {w : Nat} (hw : 1 ≤ w) (hmax : w ≤ 32) (valid : s.status.curValid = true)
    (window : s.winStart.toNat + s.winLen.toNat ≤ s.bufLen.toNat) (range : s.curOff.toNat + w ≤ 8 * s.winLen.toNat)
    (small : 8 * s.winLen.toNat < 2 ^ 32) :
    ∃ t, exec (.rdU w) s = .next t ∧ t.result.toNat = extract s.buf s.winStart.toNat s.curOff.toNat w ∧
      t.curOff.toNat = s.curOff.toNat + w ∧ t.buf = s.buf ∧ t.bufLen = s.bufLen ∧ t.winStart = s.winStart ∧
      t.winLen = s.winLen ∧ t.status.curValid = true := by
  refine ⟨_, readField_value false hw valid window range, ?_⟩
  simp only [completeCommand_frame, advanceCursor_frame, advanceCursor_curOff, setResult_frame, setResult_result,
    toNat_fieldPattern_unsigned _ _ _ hmax, valid, BitVec.toNat_ofNat, true_and, and_true]
  exact Nat.mod_eq_of_lt (by omega)

/-- Settles O36: the second read starts where the first ended, so `extract_add` composes the fields. -/
theorem narrowReadsComposeToAWideRead : Obligations.NarrowReadsComposeToAWideRead := by
  intro s a b ha hb hmax valid window small range
  obtain ⟨s1, run1, result1, off1, buf1, len1, start1, winLen1, valid1⟩ :=
    exec_rdU_inRange ha (by omega) valid window (by omega) small
  obtain ⟨s2, run2, result2, off2, -⟩ :=
    exec_rdU_inRange (s := s1) hb (by omega) valid1 (by rw [start1, winLen1, len1]; exact window)
      (by rw [off1, winLen1]; omega) (by rw [winLen1]; exact small)
  obtain ⟨s3, run3, result3, off3, -⟩ := exec_rdU_inRange (by omega : 1 ≤ a + b) hmax valid window range small
  refine ⟨s1, s2, s3, run1, run2, run3, ?_, ?_⟩
  · rw [result1, result2, result3, buf1, start1, off1, extract_add]
  · apply BitVec.eq_of_toNat_eq
    omega

end Sys2Proof.Machine
end

section
/-! PROOF. From a state of the invariant no step faults (20_memory.md R61, 10_state.md R26, R45): a decoded command is well formed,
and a well-formed command, and with it every host action that is not refused, answers a next state. -/

namespace Sys2Proof.Machine

/-! ## Decoded commands are well formed (30_encoding.md R83) -/

theorem decodeFormatN_wf {v : Word} {i j : Instr} (hj : j.wf = true) (h : decodeFormatN j v = .ok i) : i.wf = true := by
  unfold decodeFormatN at h
  split at h
  · exact Except.ok.inj h ▸ hj
  · cases h

/-- `WM1` has five bits, so the width of a read is 1 to 32. -/
theorem decodeFormatR_wf {v : Word} {i : Instr} (h : decodeFormatR v = .ok i) : i.wf = true := by
  have hbits : bitField v 4 0 < 2 ^ 5 := Nat.mod_lt _ (by decide)
  have hwidth : legalWidth (bitField v 4 0 + 1) = true := by
    simp only [legalWidth, Bool.and_eq_true, decide_eq_true_eq]
    omega
  unfold decodeFormatR at h
  split at h
  · split at h <;> exact Except.ok.inj h ▸ hwidth
  · cases h

theorem decodeFormatD_wf {v : Word} {i : Instr} (h : decodeFormatD v = .ok i) : i.wf = true := by
  unfold decodeFormatD at h
  split at h
  · split at h <;> exact Except.ok.inj h ▸ rfl
  · cases h

/-- A command that a word decodes to is well formed. -/
theorem decode_wf {v : Word} {i : Instr} (h : decode v = .ok i) : i.wf = true := by
  unfold decode at h
  dsimp only at h
  split_ifs at h
  · exact decodeFormatN_wf rfl h
  · exact decodeFormatN_wf rfl h
  · exact decodeFormatR_wf h
  · exact decodeFormatN_wf rfl h
  · exact decodeFormatN_wf rfl h
  · exact decodeFormatN_wf rfl h
  · exact decodeFormatD_wf h

theorem one_le_of_legalWidth {w : Nat} (h : legalWidth w = true) : 1 ≤ w := by
  simp only [legalWidth, Bool.and_eq_true, decide_eq_true_eq] at h
  exact h.1

/-! ## No step faults -/

namespace State.Inv

variable {s : State}

/-- A read faults only where its window leaves the buffer, which R26 rules out. -/
theorem readField_answers (h : s.Inv) (signed : Bool) {w : Nat} (hw : 1 ≤ w) : ∃ t, readField signed w s = .next t := by
  cases valid : s.status.curValid with
  | false => exact ⟨_, readField_noCursor signed w valid⟩
  | true =>
    rcases Nat.lt_or_ge (8 * s.winLen.toNat) (s.curOff.toNat + w) with past | range
    · exact ⟨_, readField_past signed valid past⟩
    · exact ⟨_, readField_value signed hw valid (h.window valid) range⟩

theorem decodeWindow_answers (h : s.Inv) {ws wl : Word} (fits : ws.toNat + wl.toNat ≤ s.bufLen.toNat) :
    ∃ t, decodeWindow ws wl s = .next t := by
  obtain ⟨t, run, -⟩ := decodeWindow_outcome (h.ready fits)
  exact ⟨t, run⟩

/-- A candidate starts in the buffer (R45), so its window has a length. -/
theorem candStart_le (h : s.Inv) (valid : s.status.candValid = true) : s.candStart.toNat ≤ s.bufLen.toNat := by
  obtain ⟨-, hmatch, -, -⟩ := h.candidate valid
  obtain ⟨hin, -, -, -⟩ := (frameMatch_iff _ _ _).1 hmatch
  omega

theorem execDecCand_answers (h : s.Inv) : ∃ t, execDecCand s = .next t := by
  unfold execDecCand
  split
  next valid =>
    have inside := h.candStart_le valid
    rw [if_neg (Nat.not_lt.2 inside)]
    exact h.decodeWindow_answers (candidateWindow_fits inside)
  next => exact ⟨_, rfl⟩

theorem execDecWin_answers (h : s.Inv) : ∃ t, execDecWin s = .next t := by
  unfold execDecWin
  split
  next fits => exact h.decodeWindow_answers ((argWindowFits_iff s).1 fits)
  next => exact ⟨_, rfl⟩

/-- A well-formed command answers a next state. -/
theorem exec_answers (h : s.Inv) {i : Instr} (hi : i.wf = true) : ∃ t, exec i s = .next t := by
  cases i with
  | nop => exact ⟨_, rfl⟩
  | curSet =>
    simp only [exec, execCurSet]
    split <;> exact ⟨_, rfl⟩
  | rdU w => exact h.readField_answers false (one_le_of_legalWidth hi)
  | rdS w => exact h.readField_answers true (one_le_of_legalWidth hi)
  | curClr => exact ⟨_, rfl⟩
  | scanStart => exact ⟨_, rfl⟩
  | scanNext =>
    rcases execScanNext_cases s with ⟨-, run⟩ | ⟨-, i, -, run⟩ | ⟨-, -, run⟩ <;> exact ⟨_, run⟩
  | decCand => exact h.execDecCand_answers
  | decWin => exact h.execDecWin_answers

theorem issueCommand_answers (h : s.Inv) (v : Word) : ∃ t, issueCommand v s = .next t := by
  unfold issueCommand
  split
  next i decoded => exact h.exec_answers (decode_wf decoded)
  next => exact ⟨_, rfl⟩

theorem hostWrite_answers (h : s.Inv) (idx : BitVec 12) (v : Word) : ∃ t, hostWrite idx v s = .next t := by
  unfold hostWrite
  split
  · exact h.issueCommand_answers v
  all_goals exact ⟨_, rfl⟩

/-- A host action answers a next state, or it is a load that is too long, and refused (R63). -/
theorem hostAct_answers_or_refused (h : s.Inv) (a : HostAction) :
    (∃ t, hostAct a s = .next t) ∨
      ∃ bytes, a = .load bytes ∧ s.cfg.bufBytesMax < bytes.length ∧
        hostAct a s = .refused (.oversizedLoad bytes.length) := by
  cases a with
  | write idx v => exact .inl (h.hostWrite_answers idx v)
  | read idx => exact .inl ⟨_, rfl⟩
  | load bytes =>
    simp only [hostAct, hostLoad]
    split
    next long => exact .inr ⟨bytes, rfl, long, rfl⟩
    next => exact .inl ⟨_, rfl⟩

end State.Inv

/-- Settles O28: a step is idle or a host action, and none of these faults in a state of the invariant. -/
theorem invariantStatesNeverFault : Obligations.InvariantStatesNeverFault := by
  intro s h
  unfold step
  split
  next => exact .inl ⟨_, rfl⟩
  next a q hq =>
    rcases (h.setQueue q).hostAct_answers_or_refused a with next | ⟨bytes, rfl, long, refused⟩
    · exact .inl next
    · exact .inr ⟨bytes, q, hq, long, refused⟩

end Sys2Proof.Machine
end

section
/-! PROOF. The command word (30_encoding.md R80 to R88): what the decoder makes of a word, and that decoding and encoding undo
each other. -/

namespace Sys2Proof

theorem legalWidth_iff (w : Nat) : legalWidth w = true ↔ 1 ≤ w ∧ w ≤ 32 := by
  simp [legalWidth]

/-! ## The decoder by formats (R81, R82) -/

theorem decodeFormatN_eq_ok {i j : Instr} {v : Word} : decodeFormatN j v = .ok i ↔ bitField v 23 0 = 0 ∧ j = i := by
  unfold decodeFormatN
  split <;> simp [*]

theorem decodeFormatN_eq_error {j : Instr} {v : Word} {e : DecodeError} :
    decodeFormatN j v = .error e ↔ bitField v 23 0 ≠ 0 ∧ .mustBeZero = e := by
  unfold decodeFormatN
  split <;> simp [*]

theorem decodeFormatR_eq_ok {i : Instr} {v : Word} :
    decodeFormatR v = .ok i ↔ bitField v 23 6 = 0 ∧
      (bitField v 5 5 = 1 ∧ .rdS (bitField v 4 0 + 1) = i ∨ bitField v 5 5 ≠ 1 ∧ .rdU (bitField v 4 0 + 1) = i) := by
  unfold decodeFormatR
  split_ifs <;> simp [*]

theorem decodeFormatR_eq_error {v : Word} {e : DecodeError} :
    decodeFormatR v = .error e ↔ bitField v 23 6 ≠ 0 ∧ .mustBeZero = e := by
  unfold decodeFormatR
  split_ifs <;> simp [*]

theorem decodeFormatD_eq_ok {i : Instr} {v : Word} :
    decodeFormatD v = .ok i ↔ bitField v 23 1 = 0 ∧
      (bitField v 0 0 = 1 ∧ .decWin = i ∨ bitField v 0 0 ≠ 1 ∧ .decCand = i) := by
  unfold decodeFormatD
  split_ifs <;> simp [*]

theorem decodeFormatD_eq_error {v : Word} {e : DecodeError} :
    decodeFormatD v = .error e ↔ bitField v 23 1 ≠ 0 ∧ .mustBeZero = e := by
  unfold decodeFormatD
  split_ifs <;> simp [*]

/-- The commands of format N with their `OPC` (R82). -/
def formatNRows : List (Nat × Instr) :=
  [(0x00, .nop), (0x01, .curSet), (0x03, .curClr), (0x10, .scanStart), (0x11, .scanNext)]

/-- The decoder goes by the `OPC` to one of the three formats, or rejects the word (R82, R86). -/
theorem decode_cases (v : Word) :
    (∃ k j, (k, j) ∈ formatNRows ∧ bitField v 31 24 = k ∧ decode v = decodeFormatN j v) ∨
    (bitField v 31 24 = 0x02 ∧ decode v = decodeFormatR v) ∨
    (bitField v 31 24 = 0x20 ∧ decode v = decodeFormatD v) ∨
    (bitField v 31 24 ∉ [0x00, 0x01, 0x02, 0x03, 0x10, 0x11, 0x20] ∧ decode v = .error .reservedOpcode) := by
  unfold decode
  dsimp only
  split_ifs <;> simp [formatNRows, *]

/-- A row of format N has an `OPC` of R86's list, and its word is that `OPC` over 24 zero bits. -/
theorem formatNRows_spec : ∀ p ∈ formatNRows,
    p.1 ∈ [0x00, 0x01, 0x03, 0x10, 0x11] ∧ (encode p.2).toNat = 2 ^ 24 * p.1 := by
  decide

/-! ## Decoding and encoding undo each other (R83, R93) -/

/-- `WM1` fills the five zero bits below a read's format bits. -/
theorem toNat_or_ofNat_width {k w : Nat} (hk : k < 2 ^ 27) (hw : legalWidth w = true) :
    (BitVec.ofNat 32 (2 ^ 5 * k) ||| BitVec.ofNat 32 (w - 1)).toNat = 2 ^ 5 * k + (w - 1) := by
  have ⟨_, hmax⟩ := (legalWidth_iff w).1 hw
  rw [BitVec.toNat_or, BitVec.toNat_ofNat, BitVec.toNat_ofNat, Nat.mod_eq_of_lt (by omega), Nat.mod_eq_of_lt (by omega),
    Nat.two_pow_add_eq_or_of_lt (by omega)]

theorem toNat_encode_rdU {w : Nat} (hw : legalWidth w = true) : (encode (.rdU w)).toNat = 0x02000000 + (w - 1) :=
  toNat_or_ofNat_width (k := 0x100000) (by decide) hw

theorem toNat_encode_rdS {w : Nat} (hw : legalWidth w = true) : (encode (.rdS w)).toNat = 0x02000020 + (w - 1) :=
  toNat_or_ofNat_width (k := 0x100001) (by decide) hw

theorem decode_rdU {v : Word} (hopc : bitField v 31 24 = 0x02) (hzero : bitField v 23 6 = 0) (hs : bitField v 5 5 = 0) :
    decode v = .ok (.rdU (bitField v 4 0 + 1)) := by
  simp [decode, decodeFormatR, hopc, hzero, hs]

theorem decode_rdS {v : Word} (hopc : bitField v 31 24 = 0x02) (hzero : bitField v 23 6 = 0) (hs : bitField v 5 5 = 1) :
    decode v = .ok (.rdS (bitField v 4 0 + 1)) := by
  simp [decode, decodeFormatR, hopc, hzero, hs]

/-- A command's word holds the command's fields, and the decoder reads them back. -/
theorem decode_encode {i : Instr} (hi : i.wf = true) : decode (encode i) = .ok i := by
  cases i with
  | rdU w =>
    have ⟨hmin, hmax⟩ := (legalWidth_iff w).1 hi
    have hv := toNat_encode_rdU hi
    have hwm1 : bitField (encode (.rdU w)) 4 0 + 1 = w := by rw [bitField]; omega
    rw [decode_rdU (by rw [bitField]; omega) (by rw [bitField]; omega) (by rw [bitField]; omega), hwm1]
  | rdS w =>
    have ⟨hmin, hmax⟩ := (legalWidth_iff w).1 hi
    have hv := toNat_encode_rdS hi
    have hwm1 : bitField (encode (.rdS w)) 4 0 + 1 = w := by rw [bitField]; omega
    rw [decode_rdS (by rw [bitField]; omega) (by rw [bitField]; omega) (by rw [bitField]; omega), hwm1]
  | nop | curSet | curClr | scanStart | scanNext | decCand | decWin => rfl

/-- Settles O2: by the fields of the command's word. -/
theorem decodeOfEncodeGivesTheCommand : Obligations.DecodeOfEncodeGivesTheCommand :=
  fun _ hi => decode_encode hi

/-- The two fields of format N make up the word (R81); the next two theorems say so of formats R and D. -/
theorem toNat_eq_fieldsN (v : Word) : v.toNat = 2 ^ 24 * bitField v 31 24 + bitField v 23 0 := by
  have hv := v.isLt
  simp only [bitField, Nat.reducePow, Nat.reduceSub, Nat.reduceAdd]
  omega

theorem toNat_eq_fieldsR (v : Word) :
    v.toNat = 2 ^ 24 * bitField v 31 24 + 2 ^ 6 * bitField v 23 6 + 2 ^ 5 * bitField v 5 5 + bitField v 4 0 := by
  have hv := v.isLt
  simp only [bitField, Nat.reducePow, Nat.reduceSub, Nat.reduceAdd]
  omega

theorem toNat_eq_fieldsD (v : Word) :
    v.toNat = 2 ^ 24 * bitField v 31 24 + 2 * bitField v 23 1 + bitField v 0 0 := by
  have hv := v.isLt
  simp only [bitField, Nat.reducePow, Nat.reduceSub, Nat.reduceAdd]
  omega

theorem bitField_bit_lt (v : Word) (k : Nat) : bitField v k k < 2 := by
  rw [bitField, Nat.sub_self]
  exact Nat.mod_lt _ (by decide)

theorem encode_of_decodeFormatN {k : Nat} {i j : Instr} {v : Word} (hrow : (k, j) ∈ formatNRows)
    (hopc : bitField v 31 24 = k) (h : decodeFormatN j v = .ok i) : encode i = v := by
  obtain ⟨hzero, rfl⟩ := decodeFormatN_eq_ok.1 h
  apply BitVec.eq_of_toNat_eq
  rw [(formatNRows_spec _ hrow).2, toNat_eq_fieldsN v, hopc, hzero, Nat.add_zero]

theorem encode_of_decodeFormatR {i : Instr} {v : Word} (hopc : bitField v 31 24 = 0x02) (h : decodeFormatR v = .ok i) :
    encode i = v := by
  have hwf := Machine.decodeFormatR_wf h
  have hbit := bitField_bit_lt v 5
  have hv := toNat_eq_fieldsR v
  apply BitVec.eq_of_toNat_eq
  obtain ⟨hzero, ⟨hs, rfl⟩ | ⟨hs, rfl⟩⟩ := decodeFormatR_eq_ok.1 h
  · rw [toNat_encode_rdS hwf]
    omega
  · rw [toNat_encode_rdU hwf]
    omega

theorem encode_of_decodeFormatD {i : Instr} {v : Word} (hopc : bitField v 31 24 = 0x20) (h : decodeFormatD v = .ok i) :
    encode i = v := by
  have hbit := bitField_bit_lt v 0
  have hv := toNat_eq_fieldsD v
  apply BitVec.eq_of_toNat_eq
  obtain ⟨hzero, ⟨hsrc, rfl⟩ | ⟨hsrc, rfl⟩⟩ := decodeFormatD_eq_ok.1 h
  · rw [show (encode .decWin).toNat = 2 ^ 24 * 0x20 + 1 from rfl]
    omega
  · rw [show (encode .decCand).toNat = 2 ^ 24 * 0x20 from rfl]
    omega

/-- The fields the decoder tests and reads cover all 32 bits, so the command's word is the word decoded. -/
theorem encode_of_decode {v : Word} {i : Instr} (h : decode v = .ok i) : encode i = v := by
  rcases decode_cases v with ⟨k, j, hrow, hopc, hd⟩ | ⟨hopc, hd⟩ | ⟨hopc, hd⟩ | ⟨-, hd⟩ <;> rw [hd] at h
  · exact encode_of_decodeFormatN hrow hopc h
  · exact encode_of_decodeFormatR hopc h
  · exact encode_of_decodeFormatD hopc h
  · cases h

theorem decode_eq_ok {v : Word} {i : Instr} : decode v = .ok i ↔ i.wf = true ∧ encode i = v :=
  ⟨fun h => ⟨Machine.decode_wf h, encode_of_decode h⟩, fun ⟨hi, hv⟩ => hv ▸ decode_encode hi⟩

/-- Settles O3: format by format, the fields of the word make up the whole word. -/
theorem decodedWordIsTheCommandsOwnWord : Obligations.DecodedWordIsTheCommandsOwnWord :=
  fun _ _ h => decode_eq_ok.1 h

/-! ## Rejected words (R86, R87) -/

theorem decode_eq_reservedOpcode (v : Word) :
    decode v = .error .reservedOpcode ↔ bitField v 31 24 ∉ [0x00, 0x01, 0x02, 0x03, 0x10, 0x11, 0x20] := by
  rcases decode_cases v with ⟨k, j, hrow, rfl, hd⟩ | ⟨hopc, hd⟩ | ⟨hopc, hd⟩ | ⟨hopc, hd⟩ <;> rw [hd]
  · obtain ⟨hlegal, -⟩ := formatNRows_spec _ hrow
    simp only [List.mem_cons, List.not_mem_nil, or_false] at hlegal
    simp only [decodeFormatN_eq_error, reduceCtorEq, and_false, false_iff, List.mem_cons, List.not_mem_nil, or_false]
    omega
  · simp [decodeFormatR_eq_error, hopc]
  · simp [decodeFormatD_eq_error, hopc]
  · simp only [hopc, not_false_eq_true]

/-- A word with a legal `OPC` and a 1 in a bit its format marks "must be zero" (R81, R87). -/
def HasMustBeZeroBit (v : Word) : Prop :=
  (bitField v 31 24 ∈ [0x00, 0x01, 0x03, 0x10, 0x11] ∧ bitField v 23 0 ≠ 0) ∨
    (bitField v 31 24 = 0x02 ∧ bitField v 23 6 ≠ 0) ∨ (bitField v 31 24 = 0x20 ∧ bitField v 23 1 ≠ 0)

theorem decode_eq_mustBeZero (v : Word) : decode v = .error .mustBeZero ↔ HasMustBeZeroBit v := by
  unfold HasMustBeZeroBit
  rcases decode_cases v with ⟨k, j, hrow, rfl, hd⟩ | ⟨hopc, hd⟩ | ⟨hopc, hd⟩ | ⟨hopc, hd⟩ <;> rw [hd]
  · obtain ⟨hlegal, -⟩ := formatNRows_spec _ hrow
    simp only [List.mem_cons, List.not_mem_nil, or_false] at hlegal
    simp only [decodeFormatN_eq_error, and_true, List.mem_cons, List.not_mem_nil, or_false]
    omega
  · simp [decodeFormatR_eq_error, hopc]
  · simp [decodeFormatD_eq_error, hopc]
  · simp only [List.mem_cons, List.not_mem_nil, or_false] at hopc
    simp only [Except.error.injEq, reduceCtorEq, false_iff, List.mem_cons, List.not_mem_nil, or_false]
    omega

/-! ## Match and mask (R82) -/

/-- A row whose mask is all ones has one word, that of its command. -/
theorem decode_eq_ok_iff_row {i : Instr} (hmask : i.maskWord = BitVec.allOnes 32) (v : Word) :
    decode v = .ok i ↔ v &&& i.maskWord = i.matchWord := by
  have hrow : i.wf = true ∧ encode i = i.matchWord := by
    cases i with
    | rdU | rdS => exact absurd hmask (show (0xFFFFFFE0 : Word) ≠ BitVec.allOnes 32 by decide)
    | nop | curSet | curClr | scanStart | scanNext | decCand | decWin => exact ⟨rfl, rfl⟩
  rw [decode_eq_ok, hmask, BitVec.and_allOnes, hrow.2]
  exact (and_iff_right hrow.1).trans eq_comm

/-- The mask of a read clears the five bits of `WM1`. -/
theorem toNat_and_readMask (v : Word) : (v &&& 0xFFFFFFE0).toNat = 2 ^ 5 * (v.toNat / 2 ^ 5) := by
  have hv := v.isLt
  rw [show (0xFFFFFFE0 : Word) = BitVec.allOnes 32 <<< 5 from rfl, ← BitVec.shiftLeft_ushiftRight, BitVec.toNat_shiftLeft,
    BitVec.toNat_ushiftRight, Nat.shiftLeft_eq, Nat.shiftRight_eq_div_pow]
  omega

theorem decode_rdU_iff_row (v : Word) : (∃ w, decode v = .ok (.rdU w)) ↔ v &&& 0xFFFFFFE0 = 0x02000000 := by
  constructor
  · rintro ⟨w, h⟩
    obtain ⟨hwf, rfl⟩ := decode_eq_ok.1 h
    exact Laws.EncodeMatchesRow.rdU w hwf
  · intro h
    have hv : 2 ^ 5 * (v.toNat / 2 ^ 5) = 0x02000000 := by rw [← toNat_and_readMask, h]; rfl
    exact ⟨_, decode_rdU (by rw [bitField]; omega) (by rw [bitField]; omega) (by rw [bitField]; omega)⟩

theorem decode_rdS_iff_row (v : Word) : (∃ w, decode v = .ok (.rdS w)) ↔ v &&& 0xFFFFFFE0 = 0x02000020 := by
  constructor
  · rintro ⟨w, h⟩
    obtain ⟨hwf, rfl⟩ := decode_eq_ok.1 h
    exact Laws.EncodeMatchesRow.rdS w hwf
  · intro h
    have hv : 2 ^ 5 * (v.toNat / 2 ^ 5) = 0x02000020 := by rw [← toNat_and_readMask, h]; rfl
    exact ⟨_, decode_rdS (by rw [bitField]; omega) (by rw [bitField]; omega) (by rw [bitField]; omega)⟩

/-- Settles O4: row by row, and then the two ways a word is rejected. -/
theorem wordsDecodeByMatchAndMask : Obligations.WordsDecodeByMatchAndMask := fun v =>
  ⟨decode_eq_ok_iff_row (i := .nop) rfl v, decode_eq_ok_iff_row (i := .curSet) rfl v, decode_rdU_iff_row v,
    decode_rdS_iff_row v, decode_eq_ok_iff_row (i := .curClr) rfl v, decode_eq_ok_iff_row (i := .scanStart) rfl v,
    decode_eq_ok_iff_row (i := .scanNext) rfl v, decode_eq_ok_iff_row (i := .decCand) rfl v,
    decode_eq_ok_iff_row (i := .decWin) rfl v, decode_eq_reservedOpcode v, decode_eq_mustBeZero v⟩

/-- Settles O1: the legal words are their commands' own words, and the others meet a rejection's condition. -/
theorem decodeReadsTheSpecsWords : Obligations.DecodeReadsTheSpecsWords :=
  ⟨decode_encode (i := .nop) rfl, decode_encode (i := .curSet) rfl, decode_encode (i := .rdU 1) rfl,
    decode_encode (i := .rdU 32) rfl, decode_encode (i := .rdS 1) rfl, decode_encode (i := .rdS 32) rfl,
    decode_encode (i := .curClr) rfl, decode_encode (i := .scanStart) rfl, decode_encode (i := .scanNext) rfl,
    decode_encode (i := .decCand) rfl, decode_encode (i := .decWin) rfl,
    (decode_eq_mustBeZero _).2 (.inl (by decide)), (decode_eq_mustBeZero _).2 (.inr (.inl (by decide))),
    (decode_eq_mustBeZero _).2 (.inr (.inr (by decide))), (decode_eq_reservedOpcode _).2 (by decide),
    (decode_eq_reservedOpcode _).2 (by decide)⟩

end Sys2Proof
end

section
/-! PROOF. A word written to `CMD` (30_encoding.md R80, R86, R87): the command it decodes to runs, or `ILLEGAL_CMD` is raised and
nothing else changes. -/

namespace Sys2Proof.Machine

theorem issueCommand_of_ok {v : Word} {i : Instr} (h : decode v = .ok i) (s : State) : issueCommand v s = exec i s := by
  rw [issueCommand, h]

theorem issueCommand_of_error {v : Word} {e : DecodeError} (h : decode v = .error e) (s : State) :
    issueCommand v s = .next (raiseError .illegalCmd s) := by
  rw [issueCommand, h]

theorem issueCommand_encode {i : Instr} (hi : i.wf = true) (s : State) : issueCommand (encode i) s = exec i s :=
  issueCommand_of_ok (decode_encode hi) s

theorem hostWrite_cmd (v : Word) (s : State) : hostWrite cmdIndex v s = issueCommand v s := rfl

/-- Settles O5: such a word is rejected, and a rejected word raises the error. -/
theorem reservedOpcodeRaisesIllegalCmd : Obligations.ReservedOpcodeRaisesIllegalCmd :=
  fun s v h => issueCommand_of_error ((decode_eq_reservedOpcode v).2 h) s

/-- Settles O6: such a word is rejected, and a rejected word raises the error. -/
theorem mustBeZeroBitRaisesIllegalCmd : Obligations.MustBeZeroBitRaisesIllegalCmd :=
  fun s v h => issueCommand_of_error ((decode_eq_mustBeZero v).2 h) s

/-- Settles O10: the step takes the write off the queue, and the write runs the command. -/
theorem stepRunsTheDecodedCommand : Obligations.StepRunsTheDecodedCommand := by
  intro s v q i hq hi
  calc step s = hostAct (.write cmdIndex v) (setQueue q s) := by rw [step, hq]
    _ = issueCommand v (setQueue q s) := rfl
    _ = exec i (setQueue q s) := issueCommand_of_ok hi _

end Sys2Proof.Machine
end

section
/-! PROOF. Descriptor codes and type tags (30_encoding.md R89 to R92): the parser of numbers accepts exactly what `toString` writes,
so a tag resolves exactly if the grammar gives it. -/

namespace Sys2Proof

/-! ## Decimal numbers (R90) -/

theorem isDigit_iff (c : Char) : '0' ≤ c ∧ c ≤ '9' ↔ c.isDigit = true := by
  simp only [Char.isDigit, Bool.and_eq_true, decide_eq_true_eq, ge_iff_le]
  rfl

theorem decimalDigits_eq_some {a n : Nat} {cs : List Char} :
    decimalDigits a cs = some n ↔ (∀ c ∈ cs, c.isDigit = true) ∧ Nat.ofDigitChars 10 cs a = n := by
  induction cs generalizing a with
  | nil => simp [decimalDigits]
  | cons c cs ih =>
    simp only [decimalDigits, isDigit_iff, Nat.ofDigitChars_cons, List.forall_mem_cons]
    split <;> simp [*]

/-- A digit character is the digit of its value. -/
theorem digitChar_of_isDigit {c : Char} (h : c.isDigit = true) :
    c.toNat - '0'.toNat < 10 ∧ Nat.digitChar (c.toNat - '0'.toNat) = c := by
  have hle : 48 ≤ c.toNat ∧ c.toNat ≤ 57 := (isDigit_iff c).2 h
  have hlt : c.toNat - '0'.toNat < 10 := by
    rw [show '0'.toNat = 48 from rfl]
    omega
  refine ⟨hlt, Char.toNat_inj.1 ?_⟩
  rw [Nat.toNat_digitChar_of_lt_ten hlt, show '0'.toNat = 48 from rfl]
  omega

/-- Writing a number that was read on top of `a` gives back the digits read, after those of `a`. -/
theorem toDigits_ofDigitChars {a : Nat} {cs : List Char} (ha : 0 < a) (hcs : ∀ c ∈ cs, c.isDigit = true) :
    Nat.toDigits 10 (Nat.ofDigitChars 10 cs a) = Nat.toDigits 10 a ++ cs := by
  induction cs generalizing a with
  | nil => simp
  | cons c cs ih =>
    rw [List.forall_mem_cons] at hcs
    obtain ⟨hlt, hc⟩ := digitChar_of_isDigit hcs.1
    rw [Nat.ofDigitChars_cons, ih (by omega) hcs.2, ← Nat.toDigits_append_toDigits (by decide) ha hlt,
      Nat.toDigits_of_lt_base hlt, hc, List.append_assoc, List.singleton_append]

/-- Without a leading zero the digits read are the number's only digits. -/
theorem toDigits_ofDigitChars_cons {c : Char} {cs : List Char} (hzero : c ≠ '0') (hcs : ∀ d ∈ c :: cs, d.isDigit = true) :
    Nat.toDigits 10 (Nat.ofDigitChars 10 (c :: cs) 0) = c :: cs := by
  rw [List.forall_mem_cons] at hcs
  obtain ⟨hlt, hc⟩ := digitChar_of_isDigit hcs.1
  have hpos : 0 < c.toNat - '0'.toNat := by
    refine Nat.pos_of_ne_zero fun h => hzero ?_
    rw [← hc, h]
    rfl
  rw [Nat.ofDigitChars_cons, Nat.mul_zero, Nat.zero_add, toDigits_ofDigitChars hpos hcs.2, Nat.toDigits_of_lt_base hlt, hc,
    List.singleton_append]

theorem head?_toDigits_ne_zero {n : Nat} (hn : 0 < n) : (Nat.toDigits 10 n).head? ≠ some '0' := by
  induction n using Nat.strongRecOn with
  | ind n ih =>
    rcases Nat.lt_or_ge n 10 with hlt | hge
    · rw [Nat.toDigits_of_lt_base hlt, List.head?_singleton, Ne, Option.some_inj, Nat.digitChar_eq_zero]
      omega
    · rw [Nat.toDigits_of_base_le (by decide) hge, List.head?_append_of_ne_nil _ Nat.toDigits_ne_nil]
      exact ih _ (by omega) (by omega)

theorem parseNumber_of_head?_ne {cs : List Char} (hne : cs ≠ []) (hzero : cs.head? ≠ some '0') :
    parseNumber cs = decimalDigits 0 cs := by
  unfold parseNumber
  split
  · exact absurd rfl hne
  · exact absurd rfl hzero
  · rfl

theorem parseNumber_eq_some {cs : List Char} {n : Nat} :
    parseNumber cs = some n ↔ 0 < n ∧ cs = Nat.toDigits 10 n := by
  constructor
  · intro h
    match cs with
    | [] => cases h
    | c :: cs =>
      have hzero : c ≠ '0' := by
        rintro rfl
        cases h
      rw [parseNumber_of_head?_ne (List.cons_ne_nil c cs) (by simpa using hzero)] at h
      obtain ⟨hdigits, rfl⟩ := decimalDigits_eq_some.1 h
      have heq := toDigits_ofDigitChars_cons hzero hdigits
      refine ⟨Nat.pos_of_ne_zero fun h0 => hzero ?_, heq.symm⟩
      rw [h0, Nat.toDigits_zero] at heq
      exact (List.cons.inj heq).1.symm
  · rintro ⟨hn, rfl⟩
    rw [parseNumber_of_head?_ne Nat.toDigits_ne_nil (head?_toDigits_ne_zero hn), decimalDigits_eq_some]
    exact ⟨fun c => Nat.isDigit_of_mem_toDigits (by decide) (by decide), Nat.ofDigitChars_ten_toDigits⟩

/-- The widths that the assembler and a tag accept are the numbers 1 to 32 as `toString` writes them (R90, R93). -/
theorem parseWidth_eq_some {cs : List Char} {n : Nat} :
    parseWidth cs = some n ↔ legalWidth n = true ∧ cs = (toString n).toList := by
  have hlist : (toString n).toList = Nat.toDigits 10 n := Nat.toList_repr
  rw [hlist, parseWidth]
  constructor
  · intro h
    split at h
    next m hm =>
      rw [Option.ite_none_right_eq_some, Option.some_inj] at h
      obtain ⟨hlegal, rfl⟩ := h
      exact ⟨hlegal, (parseNumber_eq_some.1 hm).2⟩
    next => cases h
  · rintro ⟨hlegal, rfl⟩
    rw [parseNumber_eq_some.2 ⟨((legalWidth_iff n).1 hlegal).1, rfl⟩]
    simp only [hlegal, if_true]

/-! ## Type tags (R90, R91, R92) -/

/-- `tag` is one of the grammar's tags for the width `n` and the sign (R90, R91). -/
def IsTag (n : Nat) (signed : Bool) (tag : String) : Prop :=
  if signed then tag = "int" ++ toString n else tag = "uint" ++ toString n ∨ tag = "bit" ++ toString n

theorem isTag_signed {n : Nat} {tag : String} : IsTag n true tag ↔ tag = "int" ++ toString n := Iff.rfl

theorem isTag_unsigned {n : Nat} {tag : String} :
    IsTag n false tag ↔ tag = "uint" ++ toString n ∨ tag = "bit" ++ toString n := Iff.rfl

/-- The characters of a tag that the grammar gives are its base word's and then its width's. -/
theorem eq_append_iff {tag base : String} {n : Nat} :
    tag = base ++ toString n ↔ tag.toList = base.toList ++ (toString n).toList := by
  rw [← String.toList_append, String.toList_inj]

theorem map_parseWidth_eq_some {cs : List Char} {n : Nat} {b signed : Bool} :
    (parseWidth cs).map (fun n => (n, b)) = some (n, signed) ↔
      legalWidth n = true ∧ cs = (toString n).toList ∧ b = signed := by
  simp [parseWidth_eq_some, and_assoc]

/-- A tag resolves exactly if the grammar gives it (R90). -/
theorem parseTag_eq_some {tag : String} {n : Nat} {signed : Bool} :
    parseTag tag.toList = some (n, signed) ↔ legalWidth n = true ∧ IsTag n signed tag := by
  constructor
  · intro h
    unfold parseTag at h
    split at h
    next cs hcs =>
      obtain ⟨hn, rfl, rfl⟩ := map_parseWidth_eq_some.1 h
      exact ⟨hn, isTag_unsigned.2 (.inl (eq_append_iff.2 hcs))⟩
    next cs hcs =>
      obtain ⟨hn, rfl, rfl⟩ := map_parseWidth_eq_some.1 h
      exact ⟨hn, isTag_unsigned.2 (.inr (eq_append_iff.2 hcs))⟩
    next cs hcs =>
      obtain ⟨hn, rfl, rfl⟩ := map_parseWidth_eq_some.1 h
      exact ⟨hn, isTag_signed.2 (eq_append_iff.2 hcs)⟩
    next => cases h
  · rintro ⟨hn, htag⟩
    cases signed with
    | true =>
      rw [eq_append_iff.1 (isTag_signed.1 htag)]
      exact map_parseWidth_eq_some.2 ⟨hn, rfl, rfl⟩
    | false =>
      rcases isTag_unsigned.1 htag with h | h <;> rw [eq_append_iff.1 h]
      · exact map_parseWidth_eq_some.2 ⟨hn, rfl, rfl⟩
      · exact map_parseWidth_eq_some.2 ⟨hn, rfl, rfl⟩

theorem resolveTag_of_isTag {tag : String} {n : Nat} {signed : Bool} (hn : legalWidth n = true) (htag : IsTag n signed tag) :
    resolveTag tag = fieldCode n signed := by
  rw [resolveTag, parseTag_eq_some.2 ⟨hn, htag⟩]

/-- The code of a field has bit 7 set, so it is not the code 0x00 of no field (R89, R92). -/
theorem fieldCode_ne_zero (n : Nat) (signed : Bool) : fieldCode n signed ≠ 0x00#8 := by
  intro h
  have hbit : (fieldCode n signed).getLsbD 7 = true := by
    cases signed <;> simp [fieldCode]
  rw [h] at hbit
  cases hbit

theorem resolveTag_eq_zero {tag : String} : resolveTag tag = 0x00#8 ↔ parseTag tag.toList = none := by
  unfold resolveTag
  split
  next n signed h => simp [h, fieldCode_ne_zero]
  next h => simp [h]

/-- Settles O8: the tags of the grammar resolve to their codes, and no other tag resolves. -/
theorem tagsResolveByTheGrammar : Obligations.TagsResolveByTheGrammar := by
  constructor
  · intro n hmin hmax
    have hn := (legalWidth_iff n).2 ⟨hmin, hmax⟩
    exact ⟨resolveTag_of_isTag hn (isTag_unsigned.2 (.inl rfl)), resolveTag_of_isTag hn (isTag_unsigned.2 (.inr rfl)),
      resolveTag_of_isTag hn (isTag_signed.2 rfl)⟩
  · intro tag h
    obtain ⟨⟨n, signed⟩, hparse⟩ := Option.ne_none_iff_exists'.1 (mt resolveTag_eq_zero.2 h)
    obtain ⟨hn, htag⟩ := parseTag_eq_some.1 hparse
    obtain ⟨hmin, hmax⟩ := (legalWidth_iff n).1 hn
    refine ⟨n, hmin, hmax, ?_⟩
    cases signed with
    | true => exact .inr (.inr (isTag_signed.1 htag))
    | false => exact (isTag_unsigned.1 htag).imp_right .inl

/-! ## Descriptor codes (R89) -/

/-- Settles O7: the flags of a code are digits of its number. -/
theorem validCodesNameTheirField : Obligations.ValidCodesNameTheirField := by
  intro c
  have hc := c.isLt
  refine ⟨?_, rfl, ?_⟩
  · simp only [codeValid, BitVec.getLsbD, Nat.testBit_eq_decide_div_mod_eq, Bool.and_eq_true, Bool.not_eq_true',
      decide_eq_true_eq, decide_eq_false_iff_not]
    omega
  · simp only [codeSigned, BitVec.getLsbD, Nat.testBit_eq_decide_div_mod_eq, decide_eq_true_eq]

end Sys2Proof
end

section
/-! PROOF. The assembler (30_encoding.md R93, R94): it reads back its own command lines, and what the pseudo-instructions stand
for. -/

namespace Sys2Proof.Machine

/-! ## Command lines (R93) -/

theorem stripHead_append (hs cs : List Char) : stripHead hs (hs ++ cs) = some cs := by
  induction hs with
  | nil => rfl
  | cons h hs ih => simp [stripHead, ih]

/-- The lines of the commands without an operand do not begin with `r`. -/
theorem ne_of_head?_eq_r {line : String} (h : line.toList.head? = some 'r') :
    line ≠ "nop" ∧ line ≠ "cur.set" ∧ line ≠ "cur.clr" ∧ line ≠ "scan.start" ∧ line ≠ "scan.next" ∧ line ≠ "dec.cand" ∧
      line ≠ "dec.win" := by
  refine ⟨?_, ?_, ?_, ?_, ?_, ?_, ?_⟩ <;> (rintro rfl; exact absurd h (by decide))

/-- A line that begins with `r` is read as `rd.u` and a width, or else as `rd.s` and a width. -/
theorem parseCommand_of_head?_eq_r {line : String} (h : line.toList.head? = some 'r') :
    parseCommand line = (stripHead "rd.u ".toList line.toList).elim
      ((stripHead "rd.s ".toList line.toList).bind fun cs => (parseWidth cs).map .rdS)
      (fun cs => (parseWidth cs).map .rdU) := by
  obtain ⟨h1, h2, h3, h4, h5, h6, h7⟩ := ne_of_head?_eq_r h
  rw [parseCommand, if_neg h1, if_neg h2, if_neg h3, if_neg h4, if_neg h5, if_neg h6, if_neg h7]
  split
  next cs hu => rw [hu, Option.elim_some]
  next cs hu hs => rw [hu, hs, Option.elim_none, Option.bind_some]
  next hu hs => rw [hu, hs, Option.elim_none, Option.bind_none]

theorem parseCommand_rdU (cs : String) : parseCommand ("rd.u " ++ cs) = (parseWidth cs.toList).map .rdU := by
  rw [parseCommand_of_head?_eq_r (by rw [String.toList_append]; rfl), String.toList_append, stripHead_append,
    Option.elim_some]

theorem stripHead_rdU_rdS (cs : List Char) : stripHead "rd.u ".toList ("rd.s ".toList ++ cs) = none := rfl

theorem parseCommand_rdS (cs : String) : parseCommand ("rd.s " ++ cs) = (parseWidth cs.toList).map .rdS := by
  rw [parseCommand_of_head?_eq_r (by rw [String.toList_append]; rfl), String.toList_append, stripHead_rdU_rdS,
    stripHead_append, Option.elim_none, Option.bind_some]

/-- Settles O9: a line without an operand is that command's only line, and of a read's line the width is read back. -/
theorem assemblerReadsItsOwnLines : Obligations.AssemblerReadsItsOwnLines := by
  intro i hi
  cases i with
  | rdU w => rw [commandText, parseCommand_rdU, parseWidth_eq_some.2 ⟨hi, rfl⟩, Option.map_some]
  | rdS w => rw [commandText, parseCommand_rdS, parseWidth_eq_some.2 ⟨hi, rfl⟩, Option.map_some]
  | nop | curSet | curClr | scanStart | scanNext | decCand | decWin => decide

/-! ## Pseudo-instructions (R94) -/

theorem expand_rdBit {w : Nat} (hw : legalWidth w = true) :
    (Pseudo.rdBit w).expand = some [commandLine (.rdU w)] := by
  rw [Pseudo.expand, if_pos hw]

theorem expand_rdTag {tag : String} {n : Nat} {signed : Bool} (hn : legalWidth n = true) (htag : IsTag n signed tag) :
    (Pseudo.rdTag tag).expand = some [commandLine (if signed then .rdS n else .rdU n)] := by
  rw [Pseudo.expand, parseTag_eq_some.2 ⟨hn, htag⟩]
  cases signed <;> rfl

theorem expand_rdTag_unresolvable {tag : String} (h : resolveTag tag = 0x00#8) : (Pseudo.rdTag tag).expand = none := by
  rw [Pseudo.expand, resolveTag_eq_zero.1 h]

/-- After a `scan.next`, `frame.next` decodes the candidate if there is one. -/
theorem frameNext_of_scanNext {s t : State} (run : exec .scanNext s = .next t) :
    frameNext s = if t.status.candValid then exec .decCand t else .next t := by
  rw [frameNext, issueCommand_encode rfl, run, ← issueCommand_encode (i := .decCand) rfl]

/-- Settles O60: one expansion for each form; a tag expands by its grammar. -/
theorem pseudoInstructionsExpand : Obligations.PseudoInstructionsExpand := by
  refine ⟨fun w hmin hmax => expand_rdBit ((legalWidth_iff w).2 ⟨hmin, hmax⟩), fun n hmin hmax => ?_,
    fun tag => expand_rdTag_unresolvable, fun a l => rfl, fun a l => rfl, fun s t => frameNext_of_scanNext⟩
  have hn := (legalWidth_iff n).2 ⟨hmin, hmax⟩
  exact ⟨expand_rdTag hn (isTag_unsigned.2 (.inl rfl)), expand_rdTag hn (isTag_unsigned.2 (.inr rfl)),
    expand_rdTag hn (isTag_signed.2 rfl)⟩

end Sys2Proof.Machine
end

section
/-! PROOF. The bit-by-bit read and the source's byte accumulator with its shift and mask give the same field (40_cursor.md R111,
R112). -/

namespace Sys2Proof.Machine

/-- Dividing a field by `2 ^ b` drops its last `b` bits. -/
theorem extract_add_div (m : Memory) (ws o a b : Nat) : extract m ws o (a + b) / 2 ^ b = extract m ws o a := by
  rw [extract_add, Nat.mul_comm, Nat.mul_add_div (Nat.two_pow_pos b), Nat.div_eq_of_lt (extract_lt m ws (o + a) b),
    Nat.add_zero]

/-- The remainder of a field modulo `2 ^ b` is its last `b` bits. -/
theorem extract_add_mod (m : Memory) (ws o a b : Nat) : extract m ws o (a + b) % 2 ^ b = extract m ws (o + a) b := by
  rw [extract_add, Nat.mul_add_mod_of_lt (extract_lt m ws (o + a) b)]

/-- The bytes R112 accumulates hold the bits before the field in its first byte, the field, and the bits its shift drops. -/
theorem accumulatedBits {o w : Nat} (hw : 1 ≤ w) :
    8 * ((o + w - 1) / 8 - o / 8 + 1) = o % 8 + w + (8 - (o + w) % 8) % 8 := by
  omega

/-- Settles O34: the accumulator is one wide field from the first byte on; the shift drops the bits after the read's, and the
mask those before. -/
theorem extractionIsTheAccumulatorRead : Obligations.ExtractionIsTheAccumulatorRead := by
  intro m ws o w hw _
  symm
  calc extractByBytes m ws o w
      = extract m ws (8 * (o / 8)) (o % 8 + w + (8 - (o + w) % 8) % 8) / 2 ^ ((8 - (o + w) % 8) % 8) % 2 ^ w := by
        rw [extractByBytes, accumulate_eq_extract, accumulatedBits hw, extract_base, Nat.add_zero]
    _ = extract m ws (8 * (o / 8)) (o % 8 + w) % 2 ^ w := by rw [extract_add_div]
    _ = extract m ws (8 * (o / 8) + o % 8) w := extract_add_mod ..
    _ = extract m ws o w := by rw [Nat.div_add_mod]

end Sys2Proof.Machine
end

section
/-! PROOF. The commands of the bit cursor: what each writes (40_cursor.md R116 to R120), and the integer a signed read gives
(00_scope.md R13, R14). -/

namespace Sys2Proof.Machine

/-! ## `nop`, `cur.set` and `cur.clr` (R116, R117, R120) -/

/-- Settles O29: the command's end is its only write. -/
theorem nopClearsOnlyErr : Obligations.NopClearsOnlyErr :=
  ⟨decode_encode (i := .nop) rfl, fun _ => rfl⟩

theorem execCurSet_fits {s : State} (fits : s.arg0.toNat + s.arg1.toNat ≤ s.bufLen.toNat) :
    execCurSet s = .next (completeCommand (openCursor s.arg0 s.arg1 s)) := by
  rw [execCurSet, if_pos ((argWindowFits_iff s).2 fits)]

theorem execCurSet_range {s : State} (range : s.bufLen.toNat < s.arg0.toNat + s.arg1.toNat) :
    execCurSet s = .next (raiseError .windowRange s) := by
  rw [execCurSet, if_neg fun fits => Nat.not_le_of_lt range ((argWindowFits_iff s).1 fits)]

/-- Settles O30: the window test's two outcomes. -/
theorem curSetOpensTheArgumentWindow : Obligations.CurSetOpensTheArgumentWindow :=
  ⟨decode_encode (i := .curSet) rfl, fun _ => ⟨execCurSet_fits, execCurSet_range⟩⟩

/-- Settles O31: the cursor's end and the command's end are its only writes. -/
theorem curClrDiscardsTheCursor : Obligations.CurClrDiscardsTheCursor :=
  ⟨decode_encode (i := .curClr) rfl, fun _ => rfl⟩

/-! ## Reads (R118, R119) -/

/-- Settles O32: the three ends of a read, and the field as the sum of its bits. -/
theorem rdUReadsTheFieldUnsigned : Obligations.RdUReadsTheFieldUnsigned := by
  intro s w hmin hmax
  refine ⟨decode_encode (i := .rdU w) ((legalWidth_iff w).2 ⟨hmin, hmax⟩), readField_noCursor false w,
    readField_past false, fun valid window range => ?_⟩
  rw [← extract_eq_sum]
  exact readField_value false hmin valid window range

/-- The pattern of a signed field, by the first bit read (00_scope.md R13). -/
theorem fieldPattern_signed_extract (m : Memory) (ws o : Nat) {w : Nat} (hw : 1 ≤ w) :
    fieldPattern true w (extract m ws o w) =
      BitVec.ofInt 32 (if streamBit m ws o = 1 then (extract m ws o w : Int) - 2 ^ w else extract m ws o w) := by
  rw [← extract_topBit m ws o hw]
  rfl

/-- Settles O33: the three ends of a read, with the sign taken from the first bit. -/
theorem rdSReadsTheFieldSigned : Obligations.RdSReadsTheFieldSigned := by
  intro s w hmin hmax
  refine ⟨decode_encode (i := .rdS w) ((legalWidth_iff w).2 ⟨hmin, hmax⟩), readField_noCursor true w,
    readField_past true, fun valid window range u hu => ?_⟩
  rw [hu, ← extract_eq_sum, ← fieldPattern_signed_extract _ _ _ hmin]
  exact readField_value true hmin valid window range

/-! ## Signed values (00_scope.md R13, R14) -/

/-- `toSigned32` is the library's two's complement value. -/
theorem toSigned32_eq_toInt (x : Word) : toSigned32 x = x.toInt := by
  rw [BitVec.toInt_eq_msb_cond, BitVec.msb_eq_getLsbD_last]
  rfl

theorem toSigned32_sext32 {v : Int} (hlo : -2 ^ 31 ≤ v) (hhi : v < 2 ^ 31) : toSigned32 (sext32 v) = v := by
  rw [toSigned32_eq_toInt]
  exact BitVec.toInt_ofInt_eq_self (by decide) hlo hhi

/-- `RESULT` or a slot holds the signed value of its field exactly: at most 32 bits lose nothing. -/
theorem toSigned32_fieldPattern {w u : Nat} (hmin : 1 ≤ w) (hmax : w ≤ 32) (hu : u < 2 ^ w) :
    toSigned32 (fieldPattern true w u) = signedW w u := by
  obtain ⟨hlo, hhi⟩ := signedW_range hmin hu
  have hpow : (2 ^ (w - 1) : Int) ≤ 2 ^ 31 := pow_le_pow_right₀ (by decide) (by omega)
  exact toSigned32_sext32 (by omega) (by omega)

theorem signedW_modEq (w u : Nat) : signedW w u ≡ u [ZMOD 2 ^ w] := by
  rw [signedW]
  split
  · exact Int.modEq_iff_dvd.2 (by simp)
  · rfl

/-- The signed value of a field is the one integer of the two's complement range with the field's residue. -/
theorem signedW_eq_of_modEq {w u : Nat} {v : Int} (hw : 1 ≤ w) (hu : u < 2 ^ w) (hlo : -(2 ^ (w - 1) : Int) ≤ v)
    (hhi : v < 2 ^ (w - 1)) (h : v ≡ u [ZMOD 2 ^ w]) : signedW w u = v := by
  obtain ⟨hlo', hhi'⟩ := signedW_range hw hu
  have hdvd : (2 ^ w : Int) ∣ signedW w u - v := (h.trans (signedW_modEq w u).symm).dvd
  have hpow : (2 ^ w : Int) = 2 * 2 ^ (w - 1) := (mul_pow_sub_one (by omega) 2).symm
  exact Int.sub_eq_zero.1 (Int.eq_zero_of_abs_lt_dvd hdvd (abs_lt.2 ⟨by omega, by omega⟩))

/-- A field whose bits are the low `w` bits of `v` has the residue of `v`. -/
theorem modEq_extract_of_bits {m : Memory} {ws o w : Nat} {v : Int}
    (hbits : ∀ k, k < w → (streamBit m ws (o + k) : Int) = v / 2 ^ (w - 1 - k) % 2) : v ≡ extract m ws o w [ZMOD 2 ^ w] := by
  induction w generalizing v with
  | zero => exact Int.modEq_one
  | succ w ih =>
    have hhigh : v / 2 ≡ extract m ws o w [ZMOD 2 ^ w] := ih fun k hk => by
      rw [hbits k (by omega), show w + 1 - 1 - k = w - 1 - k + 1 by omega, pow_succ', Int.ediv_ediv_of_nonneg (by decide)]
    have hlow : (streamBit m ws (o + w) : Int) = v % 2 := by simpa using hbits w (by omega)
    calc v = 2 * (v / 2) + v % 2 := (Int.mul_ediv_add_emod v 2).symm
      _ ≡ 2 * (extract m ws o w : Int) + v % 2 [ZMOD 2 ^ (w + 1)] := by
        rw [pow_succ']
        exact (hhigh.mul_left').add_right _
      _ = extract m ws o (w + 1) := by rw [← hlow, extract]; push_cast; rfl

/-- Settles O37: the field has the residue of `v`, so its signed value is `v`. -/
theorem signedFieldRoundTrips : Obligations.SignedFieldRoundTrips := by
  intro s w v hmin hmax valid window range hlo hhi hbits
  refine ⟨_, readField_value true hmin valid window range, ?_⟩
  have hlt := extract_lt s.buf s.winStart.toNat s.curOff.toNat w
  calc toSigned32 (fieldPattern true w (extract s.buf s.winStart.toNat s.curOff.toNat w))
      = signedW w (extract s.buf s.winStart.toNat s.curOff.toNat w) := toSigned32_fieldPattern hmin hmax hlt
    _ = v := signedW_eq_of_modEq hmin hlt hlo hhi (modEq_extract_of_bits hbits)

end Sys2Proof.Machine
end

section
/-! PROOF. The cursor's offset (40_cursor.md R114): what each command and host action does to a cursor that outlives it. -/

namespace Sys2Proof.Machine

/-- `t` has the window of `s`, and its cursor is `n` bits on. -/
structure MovesCursor (n : Nat) (s t : State) : Prop where
  winStart : t.winStart = s.winStart
  winLen : t.winLen = s.winLen
  curOff : t.curOff.toNat = s.curOff.toNat + n

theorem MovesCursor.curOff_eq {s t : State} (h : MovesCursor 0 s t) : t.curOff = s.curOff :=
  BitVec.eq_of_toNat_eq h.curOff

/-- An offset within the window fits `CUR_OFF`. -/
theorem State.Inv.winLen_bits_lt {s : State} (h : s.Inv) : 8 * s.winLen.toNat < 2 ^ 32 := by
  have hsize := h.windowSize
  have hmax := (configWf_bounds h.config).2.1
  omega

/-- A command that ends with a cursor where there was one is `cur.set`, a read, which moves the cursor by its width, or one that
keeps the cursor. -/
theorem CommandEnds.movesCursor {s t : State} {i : Instr} (h : CommandEnds s t i) (hs : s.Inv)
    (before : s.status.curValid = true) (after : t.status.curValid = true) :
    i = .curSet ∨ (∃ w, (i = .rdU w ∨ i = .rdS w) ∧ MovesCursor w s t) ∨
      ((∀ w, i ≠ .rdU w ∧ i ≠ .rdS w) ∧ MovesCursor 0 s t) := by
  cases h with
  | raised _ e cause ht =>
    have keeps : MovesCursor 0 s t := by constructor <;> simp [ht]
    cases cause with
    | noCursor _ _ _ invalid => simp [before] at invalid
    | windowRange _ hi _ => rcases hi with rfl | rfl <;> exact .inr (.inr ⟨by simp, keeps⟩)
    | noScan _ => exact .inr (.inr ⟨by simp, keeps⟩)
    | noCandidate _ => exact .inr (.inr ⟨by simp, keeps⟩)
  | nop ht => exact .inr (.inr ⟨by simp, by constructor <;> simp [ht]⟩)
  | opened _ _ => exact .inl rfl
  | read _ signed w _ hi _ range ht =>
    have hoff : (BitVec.ofNat 32 (s.curOff.toNat + w)).toNat = s.curOff.toNat + w :=
      Nat.mod_eq_of_lt (Nat.lt_of_le_of_lt range hs.winLen_bits_lt)
    exact .inr (.inl ⟨w, by cases signed <;> simp [hi], by simp [ht], by simp [ht], by simpa [ht] using hoff⟩)
  | readPast _ _ _ _ _ ht => simp [ht] at after
  | cleared ht => simp [ht] at after
  | scanStarted ht => exact .inr (.inr ⟨by simp, by constructor <;> simp [ht]⟩)
  | candidate _ _ _ ht => exact .inr (.inr ⟨by simp, by constructor <;> simp [ht, takeCandidate]⟩)
  | scanEnded _ _ ht => exact .inr (.inr ⟨by simp, by constructor <;> simp [ht]⟩)
  | decodedCandidate _ _ run => simp [decodeWindow_frame run] at after
  | decodedWindow _ run => simp [decodeWindow_frame run] at after

/-- Different commands have different words (30_encoding.md R83). -/
theorem encode_inj {i j : Instr} (hi : i.wf = true) (hj : j.wf = true) (h : encode i = encode j) : i = j := by
  simpa [decode_encode hi, decode_encode hj] using congrArg decode h

/-- A host action writes the word of a well-formed command, which runs, or it writes no such word, and then it keeps the cursor
if it does not end it. -/
theorem ActEnds.command_or_keepsCursor {s t : State} {a : HostAction} (h : ActEnds s t a) (after : t.status.curValid = true) :
    (∃ i, i.wf = true ∧ a = .write 0x000 (encode i) ∧ CommandEnds s t i) ∨
      ((∀ i, i.wf = true → a ≠ .write 0x000 (encode i)) ∧ MovesCursor 0 s t) := by
  cases h with
  | illegal v r rejected ht =>
    refine .inr ⟨fun i hi ha => ?_, by constructor <;> simp [ht]⟩
    obtain rfl : v = encode i := by simpa [cmdIndex] using ha
    simp [decode_encode hi] at rejected
  | command v i decoded ran =>
    obtain ⟨hi, rfl⟩ := decode_eq_ok.1 decoded
    exact .inl ⟨i, hi, rfl, exec_ends ran⟩
  | operand0 _ ht => exact .inr ⟨by simp, by constructor <;> simp [ht]⟩
  | operand1 _ ht => exact .inr ⟨by simp, by constructor <;> simp [ht]⟩
  | ignored _ _ other ht =>
    exact .inr ⟨fun _ _ ha => other.1 (HostAction.write.inj ha).1, by constructor <;> simp [ht]⟩
  | replied _ ht => exact .inr ⟨by simp, by constructor <;> simp [ht]⟩
  | loaded _ _ ht => simp [ht] at after

/-- Settles O38: an action that writes a command's word moves the cursor as the command does, and any other keeps it. -/
theorem cursorOffsetOnlyIncreases : Obligations.CursorOffsetOnlyIncreases := by
  intro a s t hs run before after
  rcases (hostAct_ends run).command_or_keepsCursor after with ⟨i, hi, rfl, ends⟩ | ⟨other, moves⟩
  · rcases ends.movesCursor hs before after with rfl | ⟨w, hread, moves⟩ | ⟨noRead, moves⟩
    · exact .inl rfl
    · have hw : 1 ≤ w ∧ w ≤ 32 := by
        rcases hread with rfl | rfl <;> exact (legalWidth_iff w).1 hi
      refine .inr ⟨moves.winStart, moves.winLen, .inl ⟨w, hw.1, hw.2, ?_, moves.curOff⟩⟩
      exact hread.imp (by rintro rfl; rfl) (by rintro rfl; rfl)
    · refine .inr ⟨moves.winStart, moves.winLen, .inr ⟨fun w hmin hmax => ?_, moves.curOff_eq⟩⟩
      have hw := (legalWidth_iff w).2 ⟨hmin, hmax⟩
      exact ⟨fun ha => (noRead w).1 (encode_inj hi hw (HostAction.write.inj ha).2),
        fun ha => (noRead w).2 (encode_inj hi hw (HostAction.write.inj ha).2)⟩
  · refine .inr ⟨moves.winStart, moves.winLen, .inr ⟨fun w hmin hmax => ?_, moves.curOff_eq⟩⟩
    have hw := (legalWidth_iff w).2 ⟨hmin, hmax⟩
    exact ⟨other (.rdU w) hw, other (.rdS w) hw⟩

end Sys2Proof.Machine
end

section
/-! PROOF. How a decode command ends (41_decoder.md R143 to R156): the conditions of R154 choose the outcome, and with it the
frame registers, the slots and the counters. -/

namespace Sys2Proof.Machine

/-! ## The outcome that the frame, its entry and its window choose (R154)

The conditions exclude each other: under those of one outcome, each other case of `DecodeOutcome` contradicts one of them. -/

/-- After a decode of the window at `ws`: `FR_INFO`, `FR_ERR`, and the first `n` fields of `types` read. -/
structure FrameEnds (s t : State) (ws : Word) (info : FrInfo) (err : FrErr) (types : List FieldType) (n : Nat) : Prop
    extends Decoded s t ws types n where
  info : t.frInfo = info
  err : t.frErr = err

namespace DecodeOutcome

variable {s t : State} {ws wl : Word} {e : SchemaEntry}

/-- A window of fewer than five bytes ends among the fixed reads (R143). -/
theorem of_short (h : DecodeOutcome s t ws wl) (short : wl.toNat < 5) :
    ∃ j < 4, fieldOffset fixedFields j ≤ 8 * wl.toNat ∧ 8 * wl.toNat < fieldOffset fixedFields (j + 1) ∧
      FrameEnds s t ws { outcome := some .truncated, msg := none } FrErr.zero fixedFields j := by
  cases h with
  | shortWindow j _ few fits past info err decoded => exact ⟨j, few, fits, past, decoded, info, err⟩
  | skipped | oversized | badTag | truncated | recorded => omega

/-- A frame whose identifier has no entry is skipped (R144). -/
theorem of_absent (h : DecodeOutcome s t ws wl) (long : 5 ≤ wl.toNat)
    (absent : lookupSchema s.cfg.registry (messageBits s ws).toNat = none) :
    FrameEnds s t ws { outcome := some .skip, msg := some (messageBits s ws) } FrErr.zero fixedFields 4 := by
  cases h with
  | skipped _ _ info err decoded => exact ⟨decoded, info, err⟩
  | shortWindow => omega
  | oversized _ _ found | badTag _ _ _ found | truncated _ _ _ found | recorded _ _ found => simp [found] at absent

/-- An entry that needs more than `REC_MAX` slots is a configuration error (R147). -/
theorem of_oversized (h : DecodeOutcome s t ws wl) (long : 5 ≤ wl.toNat)
    (found : lookupSchema s.cfg.registry (messageBits s ws).toNat = some e)
    (size : s.cfg.recMax < 4 + (readList s.cfg e).length) :
    FrameEnds s t ws { outcome := some .configError, msg := some (messageBits s ws) } sizeError (slotTypes s.cfg e) 4 := by
  cases h with
  | oversized _ _ found' _ info err decoded =>
    cases found.symm.trans found'
    exact ⟨decoded, info, err⟩
  | shortWindow | skipped | badTag | truncated | recorded => grind

/-- An invalid code in the read list is a configuration error that names the first such element (R148). -/
theorem of_invalid (h : DecodeOutcome s t ws wl) (long : 5 ≤ wl.toNat)
    (found : lookupSchema s.cfg.registry (messageBits s ws).toNat = some e)
    (size : 4 + (readList s.cfg e).length ≤ s.cfg.recMax) {it : ReadItem}
    (first : firstInvalid (readList s.cfg e) = some it) :
    FrameEnds s t ws { outcome := some .configError, msg := some (messageBits s ws) } (tagError it) (slotTypes s.cfg e) 4 := by
  cases h with
  | badTag _ _ _ found' _ first' info err decoded =>
    cases found.symm.trans found'
    cases first.symm.trans first'
    exact ⟨decoded, info, err⟩
  | shortWindow | skipped | oversized | truncated | recorded => grind

/-- Fields that need more bits than the window has are read up to the first that does not fit (R149). -/
theorem of_unfit (h : DecodeOutcome s t ws wl) (long : 5 ≤ wl.toNat)
    (found : lookupSchema s.cfg.registry (messageBits s ws).toNat = some e)
    (size : 4 + (readList s.cfg e).length ≤ s.cfg.recMax) (valid : firstInvalid (readList s.cfg e) = none)
    (unfit : 8 * wl.toNat < totalWidth (slotTypes s.cfg e)) :
    ∃ n, 4 ≤ n ∧ n < 4 + (readList s.cfg e).length ∧ fieldOffset (slotTypes s.cfg e) n ≤ 8 * wl.toNat ∧
      8 * wl.toNat < fieldOffset (slotTypes s.cfg e) (n + 1) ∧
      FrameEnds s t ws { outcome := some .truncated, msg := some (messageBits s ws) } FrErr.zero (slotTypes s.cfg e) n := by
  cases h with
  | truncated _ j _ found' _ _ few fits past info err decoded =>
    cases found.symm.trans found'
    exact ⟨4 + j, by omega, by omega, fits, past, decoded, info, err⟩
  | shortWindow | skipped | oversized | badTag | recorded => grind

/-- Fields that all fit are a record (R149). -/
theorem of_fit (h : DecodeOutcome s t ws wl) (long : 5 ≤ wl.toNat)
    (found : lookupSchema s.cfg.registry (messageBits s ws).toNat = some e)
    (size : 4 + (readList s.cfg e).length ≤ s.cfg.recMax) (valid : firstInvalid (readList s.cfg e) = none)
    (fit : totalWidth (slotTypes s.cfg e) ≤ 8 * wl.toNat) :
    FrameEnds s t ws { outcome := some .record, msg := some (messageBits s ws) } FrErr.zero (slotTypes s.cfg e)
      (4 + (readList s.cfg e).length) := by
  cases h with
  | recorded _ _ found' _ _ _ info err decoded =>
    cases found.symm.trans found'
    exact ⟨decoded, info, err⟩
  | truncated e' j _ found' _ _ _ _ past =>
    cases found.symm.trans found'
    have := fieldOffset_le_totalWidth (slotTypes s.cfg e) (4 + j + 1)
    omega
  | shortWindow | skipped | oversized | badTag => grind

/-- Whatever its outcome, a decode read the first fields of the list its identifier names (R142). -/
theorem decoded (h : DecodeOutcome s t ws wl) : ∃ n, Decoded s t ws (decodeTypes s.cfg t.frInfo.msg) n := by
  cases h with
  | shortWindow j _ _ _ _ info _ decoded => exact ⟨j, by simpa [decodeTypes, info] using decoded⟩
  | skipped _ absent info _ decoded => exact ⟨4, by simpa [decodeTypes, info, absent] using decoded⟩
  | oversized _ _ found _ info _ decoded | badTag _ _ _ found _ _ info _ decoded =>
    exact ⟨4, by simpa [decodeTypes, info, found] using decoded⟩
  | truncated e j _ found _ _ _ _ _ info _ decoded => exact ⟨4 + j, by simpa [decodeTypes, info, found] using decoded⟩
  | recorded e _ found _ _ _ info _ decoded => exact ⟨_, by simpa [decodeTypes, info, found] using decoded⟩

end DecodeOutcome

/-! ## The decode commands (R155, R156) -/

/-- An accepted decode command answers a next state, in one of the outcomes of R154. -/
theorem DecodesWindow.answers {i : Instr} {s : State} {ws wl : Word} (h : DecodesWindow i s ws wl) (hs : s.Inv) :
    ∃ t, exec i s = .next t ∧ decodeWindow ws wl s = .next t ∧ DecodeOutcome s t ws wl := by
  obtain ⟨fits, hexec⟩ := h.decodes hs
  obtain ⟨t, run, outcome⟩ := decodeWindow_outcome (hs.ready fits)
  exact ⟨t, hexec.trans run, run, outcome⟩

/-- The counters after a decode with the outcome `o` (10_state.md R36). -/
theorem decodeWindow_counters {s t : State} {ws wl : Word} {o : FrameOutcome} (run : decodeWindow ws wl s = .next t)
    (ho : t.frInfo.outcome = some o) :
    t.cntRec = (if o = .record then s.cntRec + 1 else s.cntRec) ∧
      t.cntSkip = (if o = .skip then s.cntSkip + 1 else s.cntSkip) ∧
      t.cntCfg = (if o = .configError then s.cntCfg + 1 else s.cntCfg) ∧
      t.cntTrunc = (if o = .truncated then s.cntTrunc + 1 else s.cntTrunc) := by
  obtain ⟨o', ho', counts⟩ := decodeWindow_counts run
  cases ho.symm.trans ho'
  exact counts

theorem execDecCand_noCandidate {s : State} (invalid : s.status.candValid = false) :
    execDecCand s = .next (raiseError .noCandidate s) := by
  rw [execDecCand, if_neg (by simp [invalid])]

theorem execDecCand_candidate {s : State} (valid : s.status.candValid = true) (inside : s.candStart.toNat ≤ s.bufLen.toNat) :
    execDecCand s = decodeWindow s.candStart (BitVec.ofNat 32 (candidateWindow s)) s := by
  rw [execDecCand, if_pos valid, if_neg (Nat.not_lt.2 inside)]

theorem execDecWin_fits {s : State} (fits : s.arg0.toNat + s.arg1.toNat ≤ s.bufLen.toNat) :
    execDecWin s = decodeWindow s.arg0 s.arg1 s := by
  rw [execDecWin, if_pos ((argWindowFits_iff s).2 fits)]

theorem execDecWin_range {s : State} (range : s.bufLen.toNat < s.arg0.toNat + s.arg1.toNat) :
    execDecWin s = .next (raiseError .windowRange s) := by
  rw [execDecWin, if_neg fun fits => Nat.not_le_of_lt range ((argWindowFits_iff s).1 fits)]

/-- Settles O46: the two outcomes of each command's own test. -/
theorem decodeCommandsDecodeTheirWindow : Obligations.DecodeCommandsDecodeTheirWindow :=
  ⟨decode_encode (i := .decCand) rfl, decode_encode (i := .decWin) rfl, fun _ =>
    ⟨execDecCand_noCandidate, execDecCand_candidate, execDecWin_range, execDecWin_fits⟩⟩

/-! ## The six outcomes -/

/-- Settles O52: the slots of `DecodeOutcome.of_fit`, whose offsets end at the fields' total width. -/
theorem fittingFrameIsARecord : Obligations.FittingFrameIsARecord := by
  intro i s ws wl e hs hd long found size valid fit
  obtain ⟨t, hexec, run, outcome⟩ := hd.answers hs
  have ends := outcome.of_fit long found size ((firstInvalid_eq_none _).2 valid) fit
  have counters := decodeWindow_counters run (congrArg FrInfo.outcome ends.info)
  have hoff : t.curOff.toNat = totalWidth (slotTypes s.cfg e) := by
    rw [ends.curOff, ← length_slotTypes, fieldOffset_length]
  exact ⟨t, hexec, ends.info, ends.err, ends.recCount, hoff, ends.slots, by simp [decodeWindow_frame run, counters]⟩

/-- Settles O53: the slots of `DecodeOutcome.decoded`, however many they are. -/
theorem writtenSlotsHoldFieldsOthersStay : Obligations.WrittenSlotsHoldFieldsOthersStay := by
  intro i s t ws wl hs hd hexec
  obtain ⟨-, outcome⟩ := hd.outcome hs hexec
  obtain ⟨n, decoded⟩ := outcome.decoded
  obtain rfl := decoded.recCount
  exact ⟨decoded.slots, decoded.others, decoded.curOff⟩

/-- How many fixed reads fit in a window of fewer than five bytes: their offsets are 0, 8, 14, 24 and 36 bits (R143). -/
theorem fixedReads_fit {j n : Nat} (few : j < 4) (fits : fieldOffset fixedFields j ≤ 8 * n)
    (past : 8 * n < fieldOffset fixedFields (j + 1)) :
    (n = 0 → j = 0) ∧ (n = 1 → j = 1) ∧ (n = 2 → j = 2) ∧ (3 ≤ n → j = 3) := by
  interval_cases j <;> simp only [fieldOffset, fixedFields, totalWidth, List.take] at fits past <;> omega

/-- Settles O47: the number of fixed reads that fit gives `REC_COUNT`, and their offset `CUR_OFF`. -/
theorem shortWindowIsTruncated : Obligations.ShortWindowIsTruncated := by
  intro i s ws wl hs hd short
  obtain ⟨t, hexec, run, outcome⟩ := hd.answers hs
  obtain ⟨j, few, fits, past, ends⟩ := outcome.of_short short
  have counters := decodeWindow_counters run (congrArg FrInfo.outcome ends.info)
  obtain ⟨h0, h1, h2, h3⟩ := fixedReads_fit few fits past
  have hcount : t.recCount = BitVec.ofNat 32 j := by simp [← ends.recCount]
  have hoff : t.curOff = BitVec.ofNat 32 (fieldOffset fixedFields j) := by simp [← ends.curOff]
  refine ⟨t, hexec, ends.info, ends.err, ?_⟩
  simp only [decodeWindow_frame run, counters, hcount, hoff, if_true, reduceCtorEq, if_false, true_and]
  exact ⟨fun h => h0 h ▸ ⟨rfl, rfl⟩, fun h => h1 h ▸ ⟨rfl, rfl⟩, fun h => h2 h ▸ ⟨rfl, rfl⟩,
    fun h => h3 h ▸ ⟨rfl, rfl⟩⟩

/-- Settles O48: the four fixed fields and the outcome of `DecodeOutcome.of_absent`. -/
theorem unknownMessageIsSkipped : Obligations.UnknownMessageIsSkipped := by
  intro i s ws wl hs hd long absent
  obtain ⟨t, hexec, run, outcome⟩ := hd.answers hs
  have ends := outcome.of_absent long absent
  have counters := decodeWindow_counters run (congrArg FrInfo.outcome ends.info)
  exact ⟨t, hexec, ends.info, ends.err, BitVec.eq_of_toNat_eq ends.recCount, BitVec.eq_of_toNat_eq ends.curOff,
    by simp [decodeWindow_frame run, counters]⟩

/-- A decode that stops before the schema reads has read the four fixed fields, 36 bits (R140). -/
theorem FrameEnds.fourSlots {s t : State} {ws : Word} {info : FrInfo} {err : FrErr} {c : Config} {e : SchemaEntry}
    (h : FrameEnds s t ws info err (slotTypes c e) 4) : t.recCount = 4 ∧ t.curOff = 36 :=
  ⟨BitVec.eq_of_toNat_eq h.recCount, BitVec.eq_of_toNat_eq (h.curOff.trans (fieldOffset_slotTypes_four c e))⟩

/-- Settles O49: the configuration error of `DecodeOutcome.of_oversized`. -/
theorem oversizedEntryIsAConfigError : Obligations.OversizedEntryIsAConfigError := by
  intro i s ws wl e hs hd long found size
  obtain ⟨t, hexec, run, outcome⟩ := hd.answers hs
  have ends := outcome.of_oversized long found size
  have counters := decodeWindow_counters run (congrArg FrInfo.outcome ends.info)
  obtain ⟨hcount, hoff⟩ := ends.fourSlots
  exact ⟨t, hexec, ends.info, ends.err, hcount, hoff, by simp [decodeWindow_frame run, counters]⟩

/-- Settles O50: the element named is the first invalid one of the read list. -/
theorem invalidDescriptorIsAConfigError : Obligations.InvalidDescriptorIsAConfigError := by
  intro i s ws wl e front back it hs hd long found size hlist valid invalid
  obtain ⟨t, hexec, run, outcome⟩ := hd.answers hs
  have first : firstInvalid (readList s.cfg e) = some it := by rw [hlist, firstInvalid_append valid invalid]
  have ends := outcome.of_invalid long found size first
  have counters := decodeWindow_counters run (congrArg FrInfo.outcome ends.info)
  obtain ⟨hcount, hoff⟩ := ends.fourSlots
  exact ⟨t, hexec, ends.info, ends.err, hcount, hoff, by simp [decodeWindow_frame run, counters]⟩

/-- Settles O51: the count and the offset of the first field that does not fit. -/
theorem schemaReadPastTheWindowIsTruncated : Obligations.SchemaReadPastTheWindowIsTruncated := by
  intro i s ws wl e hs hd long found size valid unfit
  obtain ⟨t, hexec, run, outcome⟩ := hd.answers hs
  obtain ⟨n, fixed, few, fits, past, ends⟩ := outcome.of_unfit long found size ((firstInvalid_eq_none _).2 valid) unfit
  have counters := decodeWindow_counters run (congrArg FrInfo.outcome ends.info)
  obtain rfl := ends.recCount
  exact ⟨t, hexec, ends.info, ends.err, fixed, few, ends.curOff, ends.curOff ▸ fits, past,
    by simp [decodeWindow_frame run, counters]⟩

end Sys2Proof.Machine
end

section
/-! PROOF. The decode of a candidate (41_decoder.md R155): its first slots are the header the scanner matched, and a second decode
gives the same frame. -/

namespace Sys2Proof.Machine

/-! ## The header in the slots (R140, 30_encoding.md R95, R96) -/

/-- The scanner's length is the decoder's third field: the ten bits after the reserved ones (R96). -/
theorem frameLength_eq_extract (m : Memory) (i : Nat) : frameLength m i = extract m i 14 10 := by
  have hlow : (m.get (i + 2)).toNat < 2 ^ 8 := (m.get (i + 2)).isLt
  calc frameLength m i
      = accumulate m (i + 1) 2 % 2 ^ 10 := by
        rw [frameLength, ← Nat.shiftLeft_add_eq_or_of_lt hlow, Nat.shiftLeft_eq, Nat.mul_comm]
        simp only [accumulate, Nat.mul_zero, Nat.zero_add]
        exact Nat.and_two_pow_sub_one_eq_mod _ 10
    _ = extract m i 8 (6 + 10) % 2 ^ 10 := by rw [accumulate_eq_extract, extract_base]
    _ = extract m i 14 10 := extract_add_mod m i 8 6 10

/-- The scanner's reserved bits are the decoder's second field (R95). -/
theorem extract_reserved {m : Memory} {i : Nat} (h : m.get (i + 1) &&& reservedMask = 0) : extract m i 8 6 = 0 := by
  have hmask : ∀ b : Byte, b &&& reservedMask = 0 → b.toNat / 2 ^ 2 = 0 := by decide
  rw [← extract_add_div m i 8 6 2, ← extract_base m i 1 0, extract_byte]
  exact hmask _ h

/-- Where the match test holds, the first three fields are the preamble, zero and the length (R181). -/
theorem fieldSlot_of_frameMatch {m : Memory} {n i : Nat} (h : frameMatch m n i = true) :
    fieldSlot m i fixedFields 0 = 0xD3 ∧ fieldSlot m i fixedFields 1 = 0 ∧
      fieldSlot m i fixedFields 2 = BitVec.ofNat 32 (frameLength m i) := by
  obtain ⟨-, hpreamble, hreserved, -⟩ := (frameMatch_iff _ _ _).1 h
  have h0 : fieldSlot m i fixedFields 0 = BitVec.ofNat 32 (extract m i 0 8) := rfl
  have h1 : fieldSlot m i fixedFields 1 = BitVec.ofNat 32 (extract m i 8 6) := rfl
  have h2 : fieldSlot m i fixedFields 2 = BitVec.ofNat 32 (extract m i 14 10) := rfl
  rw [h0, h1, h2, extract_byte, hpreamble, extract_reserved hreserved, ← frameLength_eq_extract]
  exact ⟨rfl, rfl, rfl⟩

/-- Whatever the identifier, the fixed fields come first. -/
theorem decodeTypes_eq_append (c : Config) (msg : Option (BitVec 12)) : ∃ gs, decodeTypes c msg = fixedFields ++ gs := by
  cases msg with
  | none => exact ⟨[], rfl⟩
  | some id =>
    simp only [decodeTypes]
    cases lookupSchema c.registry id.toNat with
    | none => exact ⟨[], rfl⟩
    | some e => exact ⟨_, rfl⟩

/-- A decode of at least three bytes reads the first three fields. -/
theorem DecodeOutcome.three_le_recCount {s t : State} {ws wl : Word} (h : DecodeOutcome s t ws wl) (long : 3 ≤ wl.toNat) :
    3 ≤ t.recCount.toNat := by
  cases h with
  | shortWindow j _ few fits past _ _ decoded =>
    obtain ⟨-, -, -, h3⟩ := fixedReads_fit few fits past
    rw [decoded.recCount, h3 long]
  | skipped _ _ _ _ decoded | oversized _ _ _ _ _ _ decoded | badTag _ _ _ _ _ _ _ _ decoded
  | truncated _ _ _ _ _ _ _ _ _ _ _ decoded | recorded _ _ _ _ _ _ _ _ decoded =>
    rw [decoded.recCount]
    omega

/-- With a candidate, `dec.cand` accepts the candidate's window, which holds at least the header. -/
theorem State.Inv.decodesCandidate {s : State} (h : s.Inv) (valid : s.status.candValid = true) :
    ∃ wl : Word, DecodesWindow .decCand s s.candStart wl ∧ 3 ≤ wl.toNat := by
  obtain ⟨-, hmatch, hlen, hspan⟩ := h.candidate valid
  obtain ⟨inside, -, -, hpos⟩ := (frameMatch_iff _ _ _).1 hmatch
  have hwl : (BitVec.ofNat 32 (candidateWindow s)).toNat = candidateWindow s :=
    Nat.mod_eq_of_lt (Nat.lt_of_le_of_lt (Nat.min_le_left _ _) s.candSpan.isLt)
  refine ⟨_, .inr ⟨rfl, valid, rfl, hwl⟩, ?_⟩
  rw [hwl, candidateWindow]
  omega

/-- Settles O54: the first three fields are the match test's. -/
theorem candidateDecodeEchoesTheHeader : Obligations.CandidateDecodeEchoesTheHeader := by
  intro s t hs valid hexec
  obtain ⟨wl, hd, long⟩ := hs.decodesCandidate valid
  obtain ⟨-, outcome⟩ := hd.outcome hs hexec
  have hcount := outcome.three_le_recCount long
  obtain ⟨n, decoded⟩ := outcome.decoded
  obtain rfl := decoded.recCount
  obtain ⟨gs, htypes⟩ := decodeTypes_eq_append s.cfg t.frInfo.msg
  have hslot : ∀ k < 3, recSlot k t = fieldSlot s.buf s.candStart.toNat fixedFields k := fun k hk => by
    rw [decoded.slots k (by omega), htypes, fieldSlot_append_left (Nat.lt_succ_of_lt hk)]
  obtain ⟨-, hmatch, hlen, -⟩ := hs.candidate valid
  obtain ⟨h0, h1, h2⟩ := fieldSlot_of_frameMatch hmatch
  refine ⟨hcount, ?_, ?_, ?_⟩
  · rw [hslot 0 (by decide), h0]
  · rw [hslot 1 (by decide), h1]
  · rw [hslot 2 (by decide), h2, ← hlen, BitVec.ofNat_toNat, BitVec.setWidth_eq]

/-! ## Decoding again (R155) -/

/-- If the first `j` fields fit in `a` bits and the first `k + 1` do not, then `j` is at most `k`. -/
theorem le_of_fieldOffset_fits {fs : List FieldType} {a j k : Nat} (fits : fieldOffset fs j ≤ a)
    (past : a < fieldOffset fs (k + 1)) : j ≤ k := by
  by_contra hlt
  have := fieldOffset_mono fs (show k + 1 ≤ j by omega)
  omega

/-- Two decodes of the same window of the same buffer with the same parameters leave the same frame registers and read the same
fields. -/
theorem DecodeOutcome.unique {s t s' t' : State} {ws wl : Word} (hcfg : s'.cfg = s.cfg) (hbuf : s'.buf = s.buf)
    (h : DecodeOutcome s t ws wl) (h' : DecodeOutcome s' t' ws wl) :
    ∃ info err types n, FrameEnds s t ws info err types n ∧ FrameEnds s' t' ws info err types n := by
  have hid : messageBits s' ws = messageBits s ws := by rw [messageBits, messageBits, hbuf]
  rcases Nat.lt_or_ge wl.toNat 5 with short | long
  · obtain ⟨j, -, fits, past, ends⟩ := h.of_short short
    obtain ⟨j', -, fits', past', ends'⟩ := h'.of_short short
    obtain rfl : j = j' := Nat.le_antisymm (le_of_fieldOffset_fits fits past') (le_of_fieldOffset_fits fits' past)
    exact ⟨_, _, _, _, ends, ends'⟩
  cases found : lookupSchema s.cfg.registry (messageBits s ws).toNat with
  | none => exact ⟨_, _, _, _, h.of_absent long found, hid ▸ h'.of_absent long (by rw [hcfg, hid, found])⟩
  | some e =>
    have found' : lookupSchema s'.cfg.registry (messageBits s' ws).toNat = some e := by rw [hcfg, hid, found]
    rcases Nat.lt_or_ge s.cfg.recMax (4 + (readList s.cfg e).length) with size | size
    · exact ⟨_, _, _, _, h.of_oversized long found size, by
        simpa only [hid, hcfg] using h'.of_oversized long found' (by rwa [hcfg])⟩
    cases first : firstInvalid (readList s.cfg e) with
    | some it =>
      exact ⟨_, _, _, _, h.of_invalid long found size first, by
        simpa only [hid, hcfg] using h'.of_invalid long found' (by rwa [hcfg]) (by rwa [hcfg])⟩
    | none =>
      rcases Nat.lt_or_ge (8 * wl.toNat) (totalWidth (slotTypes s.cfg e)) with unfit | fit
      · obtain ⟨n, -, -, fits, past, ends⟩ := h.of_unfit long found size first unfit
        obtain ⟨n', -, -, fits', past', ends'⟩ :=
          h'.of_unfit long found' (by rwa [hcfg]) (by rwa [hcfg]) (by rwa [hcfg])
        rw [hcfg] at fits' past'
        obtain rfl : n = n' := Nat.le_antisymm (le_of_fieldOffset_fits fits past') (le_of_fieldOffset_fits fits' past)
        exact ⟨_, _, _, _, ends, by simpa only [hid, hcfg] using ends'⟩
      · exact ⟨_, _, _, _, h.of_fit long found size first fit, by
          simpa only [hid, hcfg] using h'.of_fit long found' (by rwa [hcfg]) (by rwa [hcfg]) (by rwa [hcfg])⟩

/-- Settles O56: the second decode is of the same window, so it leaves the same frame and counts the same outcome. -/
theorem repeatedDecodeGivesTheSameFrame : Obligations.RepeatedDecodeGivesTheSameFrame := by
  intro s t hs valid hexec
  obtain ⟨wl, hd, -⟩ := hs.decodesCandidate valid
  obtain ⟨run, outcome⟩ := hd.outcome hs hexec
  obtain ⟨hcfg, hbuf, hlen, -, -, -, -, hstart, -, hspan, -, -, -, -, -, hvalid, -⟩ := decodeWindow_frame run
  have ht : t.Inv := hs.of_commandEnds (exec_ends hexec)
  have hd' : DecodesWindow .decCand t s.candStart wl := by
    simpa only [DecodesWindow, reduceCtorEq, false_and, false_or, hlen, hstart, hspan, hvalid] using hd
  obtain ⟨u, hexec', run', outcome'⟩ := hd'.answers ht
  obtain ⟨info, err, types, n, ends, ends'⟩ := outcome.unique hcfg hbuf outcome'
  have hinfo : u.frInfo = t.frInfo := ends'.info.trans ends.info.symm
  obtain ⟨o, ho, counts⟩ := decodeWindow_counts run
  have counters := decodeWindow_counters (o := o) run' (by rw [hinfo, ho])
  refine ⟨u, hexec', hinfo, ends'.err.trans ends.err.symm, BitVec.eq_of_toNat_eq (ends'.recCount.trans ends.recCount.symm),
    fun k => ?_, BitVec.eq_of_toNat_eq (ends'.curOff.trans ends.curOff.symm), ?_⟩
  · rcases Nat.lt_or_ge k n with hk | hk
    · rw [ends'.slots k hk, ends.slots k hk, hbuf]
    · exact ends'.others k hk
  · obtain ⟨hrec, hskip, hcfgCount, htrunc⟩ := counts
    obtain ⟨hrec', hskip', hcfgCount', htrunc'⟩ := counters
    rw [hrec', hskip', hcfgCount', htrunc', hrec, hskip, hcfgCount, htrunc]
    cases o <;> simp

end Sys2Proof.Machine
end

section
/-! PROOF. The read list of an entry (41_decoder.md R145, R146), and the decoded record the host makes of the slots (R153). -/

namespace Sys2Proof.Machine

/-! ## The read list (R145) -/

theorem length_readList (c : Config) (e : SchemaEntry) :
    (readList c e).length = (e.header.length - 1) + (e.content.length - contentStart c) := by
  simp only [readList, List.length_append, indexFrom_length, List.length_drop]

theorem readList_desc (c : Config) (e : SchemaEntry) :
    (readList c e).map (fun it => it.desc) = e.header.drop 1 ++ e.content.drop (contentStart c) := by
  rw [readList, List.map_append, indexFrom_desc, indexFrom_desc]

/-- In a list indexed from `a` on, the descriptor at index `i` stands at position `i - a`. -/
theorem indexFrom_drop_getElem? {l : DescList} {ds : List Descriptor} {d : Descriptor} {a i : Nat} (hi : a ≤ i)
    (h : ds[i]? = some d) : (indexFrom l a (ds.drop a))[i - a]? = some { list := l, idx := i, desc := d } := by
  rw [indexFrom_getElem?, List.getElem?_drop, Nat.add_sub_cancel' hi, h, Option.map_some]

theorem readList_header {c : Config} {e : SchemaEntry} {i : Nat} {d : Descriptor} (hi : 1 ≤ i) (h : e.header[i]? = some d) :
    (readList c e)[i - 1]? = some { list := .header, idx := i, desc := d } := by
  have hlt : i < e.header.length := (List.getElem?_eq_some_iff.1 h).1
  rw [readList, List.getElem?_append_left (by rw [indexFrom_length, List.length_drop]; omega)]
  exact indexFrom_drop_getElem? hi h

theorem readList_content {c : Config} {e : SchemaEntry} {j : Nat} {d : Descriptor} (hj : contentStart c ≤ j)
    (h : e.content[j]? = some d) :
    (readList c e)[(e.header.length - 1) + (j - contentStart c)]? = some { list := .content, idx := j, desc := d } := by
  have hlen : (indexFrom .header 1 (e.header.drop 1)).length = e.header.length - 1 := by
    rw [indexFrom_length, List.length_drop]
  rw [readList, ← hlen, List.getElem?_append_right (Nat.le_add_right _ _), Nat.add_sub_cancel_left]
  exact indexFrom_drop_getElem? hj h

/-- Settles O58: the list is its two parts, each indexed from its first descriptor that is read. -/
theorem readListSkipsOnlyTheFirstDescriptors : Obligations.ReadListSkipsOnlyTheFirstDescriptors := by
  rintro c e c0 rfl
  exact ⟨readList_desc c e, length_readList c e, fun _ _ => readList_header, fun _ _ => readList_content⟩

/-! ## The decoded record (R153) -/

theorem length_slotNames (c : Config) (e : SchemaEntry) : (slotNames c e).length = 4 + (readList c e).length := by
  rw [slotNames, List.length_append, List.length_map]
  rfl

/-- The value of the `k`-th slot, by its field's sign (R32). -/
theorem slotValuesFrom_getElem? (s : State) (fs : List FieldType) (j k : Nat) :
    (slotValuesFrom j fs s)[k]? = fs[k]?.map fun f => slotValue f.signed (recSlot (j + k) s) := by
  induction fs generalizing j k with
  | nil => rfl
  | cons f fs ih =>
    cases k with
    | zero => rfl
    | succ k => rw [slotValuesFrom, List.getElem?_cons_succ, List.getElem?_cons_succ, ih, Nat.succ_add_eq_add_succ]

theorem length_slotValuesFrom (s : State) (fs : List FieldType) (j : Nat) : (slotValuesFrom j fs s).length = fs.length := by
  induction fs generalizing j with
  | nil => rfl
  | cons f fs ih => rw [slotValuesFrom, List.length_cons, List.length_cons, ih]

/-- The record of a frame with the entry `e`. -/
theorem decodedRecord_of_record {s : State} {id : BitVec 12} {e : SchemaEntry} (ho : s.frInfo.outcome = some .record)
    (hm : s.frInfo.msg = some id) (found : lookupSchema s.cfg.registry id.toNat = some e) :
    decodedRecord s = some ((slotNames s.cfg e).zip (slotValuesFrom 0 (slotTypes s.cfg e) s)) := by
  simp only [decodedRecord, ho, hm, found]

theorem decodedRecord_outcome {s : State} {r : List (String × Int)} (h : decodedRecord s = some r) :
    s.frInfo.outcome = some .record := by
  unfold decodedRecord at h
  split at h
  next ho _ => exact ho
  next => cases h

/-- After a RECORD outcome the identifier has an entry, and there is one slot for each of its fields. -/
theorem State.FrameInv.entry_of_record {s : State} (h : s.FrameInv) (ho : s.frInfo.outcome = some .record) :
    ∃ id e, s.frInfo.msg = some id ∧ lookupSchema s.cfg.registry id.toNat = some e ∧
      s.recCount.toNat = 4 + (readList s.cfg e).length := by
  cases hm : s.frInfo.msg with
  | none => simp [State.FrameInv, ho, hm] at h
  | some id =>
    simp only [State.FrameInv, ho, hm] at h
    obtain ⟨e, found, -, hcount, -⟩ := h
    exact ⟨id, e, rfl, found, hcount⟩

/-- A name that no pair has maps to no value. -/
theorem recordField_eq_none {r : List (String × Int)} {n : String} (h : ∀ p ∈ r, p.1 ≠ n) : recordField n r = none := by
  induction r with
  | nil => rfl
  | cons p r ih =>
    rw [recordField, ih fun q hq => h q (List.mem_cons_of_mem p hq)]
    exact if_neg (h p (List.mem_cons_self ..))

/-- The last pair with a name gives its value (R153). -/
theorem recordField_last (r : List (String × Int)) {r' : List (String × Int)} {n : String} (v : Int)
    (h : ∀ p ∈ r', p.1 ≠ n) : recordField n (r ++ (n, v) :: r') = some v := by
  induction r with
  | nil => rw [List.nil_append, recordField, recordField_eq_none h]; exact if_pos rfl
  | cons p r ih => rw [List.cons_append, recordField, ih]

/-- Settles O59: the record is the zip of the names and the values of the slots, which are equally many. -/
theorem recordIsTheSlotsWithTheirNames : Obligations.RecordIsTheSlotsWithTheirNames := by
  refine ⟨fun s hs => ⟨fun h => ?_, fun ho => ?_⟩, fun s r hs hr => ?_, fun r r' n v => recordField_last r v⟩
  · obtain ⟨r, hr⟩ := Option.isSome_iff_exists.1 h
    exact decodedRecord_outcome hr
  · obtain ⟨id, e, hm, found, -⟩ := hs.entry_of_record ho
    rw [decodedRecord_of_record ho hm found, Option.isSome_some]
  · have ho := decodedRecord_outcome hr
    obtain ⟨id, e, hm, found, hcount⟩ := hs.entry_of_record ho
    obtain rfl := Option.some.inj ((decodedRecord_of_record ho hm found).symm.trans hr)
    have hlen : (slotNames s.cfg e).length = (slotValuesFrom 0 (slotTypes s.cfg e) s).length := by
      rw [length_slotNames, length_slotValuesFrom, length_slotTypes]
    rw [List.length_zip, ← hlen, Nat.min_self, length_slotNames, hcount, List.map_fst_zip hlen.le, List.map_snd_zip hlen.ge]
    refine ⟨rfl, rfl, fun id' e' hm' found' => ?_⟩
    obtain rfl := Option.some.inj (hm.symm.trans hm')
    obtain rfl := Option.some.inj (found.symm.trans found')
    refine ⟨rfl, fun k hk => ?_⟩
    have hk : k < (slotTypes s.cfg e).length := by rwa [length_slotTypes]
    rw [slotValuesFrom_getElem?, List.getD_eq_getElem?_getD, List.getElem?_eq_getElem hk, Nat.zero_add]
    rfl

end Sys2Proof.Machine
end

section
/-! PROOF. The scanner's commands (42_scanner.md R181 to R190): the match test in numbers, and what `scan.start` and `scan.next`
write. -/

namespace Sys2Proof.Machine

/-! ## The match test (R181 to R183) -/

/-- The reserved bits are the top six, so they are 0 exactly in the bytes below 4. -/
theorem and_reservedMask_eq_zero_iff : ∀ b : Byte, b &&& reservedMask = 0 ↔ b.toNat < 4 := by decide

/-- The length is the low ten bits of two bytes, high byte first (R182). -/
theorem frameLength_eq_mod (m : Memory) (i : Nat) :
    frameLength m i = (256 * (m.get (i + 1)).toNat + (m.get (i + 2)).toNat) % 2 ^ 10 := by
  have hlow : (m.get (i + 2)).toNat < 2 ^ 8 := (m.get (i + 2)).isLt
  rw [frameLength, ← Nat.shiftLeft_add_eq_or_of_lt hlow, Nat.shiftLeft_eq, Nat.mul_comm]
  exact Nat.and_two_pow_sub_one_eq_mod _ 10

/-- With the reserved bits 0 the two bytes hold nothing but the length. -/
theorem frameLength_of_reserved {m : Memory} {i : Nat} (hhigh : (m.get (i + 1)).toNat < 4) :
    frameLength m i = 256 * (m.get (i + 1)).toNat + (m.get (i + 2)).toNat := by
  have hlow : (m.get (i + 2)).toNat < 2 ^ 8 := (m.get (i + 2)).isLt
  rw [frameLength_eq_mod]
  exact Nat.mod_eq_of_lt (by omega)

/-- Settles O39: each conjunct of the test in numbers; the length's mask does nothing once the reserved bits are 0. -/
theorem matchTestIsTheFourConditions : Obligations.MatchTestIsTheFourConditions := by
  intro m n i
  rw [frameMatch_iff, and_reservedMask_eq_zero_iff]
  exact ⟨and_congr_right fun _ => and_congr_right fun _ => and_congr_right fun hhigh => by rw [frameLength_of_reserved hhigh],
    fun ⟨_, _, hhigh, _⟩ => frameLength_of_reserved hhigh⟩

/-! ## `scan.start` and `scan.next` (R189, R190) -/

/-- Settles O40: the start of a scan and the command's end are its only writes. -/
theorem scanStartBeginsAtByteZero : Obligations.ScanStartBeginsAtByteZero :=
  ⟨decode_encode (i := .scanStart) rfl, fun _ => rfl⟩

theorem execScanNext_noScan {s : State} (inactive : s.status.scanActive = false) :
    execScanNext s = .next (raiseError .noScan s) := by
  rw [execScanNext, if_neg (by simp [inactive])]

theorem execScanNext_candidate {s : State} {i : Nat} (active : s.status.scanActive = true)
    (found : nextCandidate s = some i) : execScanNext s = .next (completeCommand (takeCandidate i s)) := by
  simp only [execScanNext, active, if_true, found]

theorem execScanNext_done {s : State} (active : s.status.scanActive = true) (found : nextCandidate s = none) :
    execScanNext s = .next (completeCommand (endScan (max s.scanPos.toNat s.bufLen.toNat) s)) := by
  simp only [execScanNext, active, if_true, found]

/-- The first match from `SCAN_POS` on is the next candidate: a match lies in the buffer, so the search reaches it (R186). -/
theorem nextCandidate_of_first {s : State} {i : Nat} (hpos : s.scanPos.toNat ≤ i)
    (hmatch : frameMatch s.buf s.bufLen.toNat i = true)
    (first : ∀ k, s.scanPos.toNat ≤ k → k < i → frameMatch s.buf s.bufLen.toNat k = false) : nextCandidate s = some i := by
  obtain ⟨inside, -, -, -⟩ := (frameMatch_iff _ _ _).1 hmatch
  exact (firstMatch_eq_some ..).2 ⟨hpos, by omega, hmatch, first⟩

/-- With no match from `SCAN_POS` on there is no next candidate (R187). -/
theorem nextCandidate_of_noMatch {s : State}
    (noMatch : ∀ k, s.scanPos.toNat ≤ k → k < s.bufLen.toNat → frameMatch s.buf s.bufLen.toNat k = false) :
    nextCandidate s = none :=
  (firstMatch_eq_none ..).2 fun k hpos hk => noMatch k hpos (by omega)

/-- Settles O41: the three outcomes of `scan.next`, by whether a scan is active and what the search finds. -/
theorem scanNextFindsTheNextCandidate : Obligations.ScanNextFindsTheNextCandidate :=
  ⟨decode_encode (i := .scanNext) rfl, fun _ =>
    ⟨execScanNext_noScan,
      fun active _ hpos hmatch first => execScanNext_candidate active (nextCandidate_of_first hpos hmatch first),
      fun active noMatch => execScanNext_done active (nextCandidate_of_noMatch noMatch)⟩⟩

end Sys2Proof.Machine
end

section
/-! PROOF. The candidates of a scan (42_scanner.md R191): two scans that agree on the buffer, `SCAN_RESUME` and `SCAN_POS` yield the
same candidates, whatever else their states hold. -/

namespace Sys2Proof.Machine

/-- `s` and `s'` are at the same point of a scan of the same buffer. -/
structure SameScan (s s' : State) : Prop where
  buf : s'.buf = s.buf
  bufLen : s'.bufLen = s.bufLen
  resume : s'.cfg.scanResume = s.cfg.scanResume
  scanPos : s'.scanPos = s.scanPos
  active : s.status.scanActive = true
  active' : s'.status.scanActive = true

namespace SameScan

variable {s s' : State}

theorem nextCandidate_eq (h : SameScan s s') : nextCandidate s' = nextCandidate s := by
  rw [nextCandidate, nextCandidate, h.buf, h.bufLen, h.scanPos]

theorem takeCandidate (h : SameScan s s') (i : Nat) : SameScan (takeCandidate i s) (takeCandidate i s') where
  buf := h.buf
  bufLen := h.bufLen
  resume := h.resume
  scanPos := by simp only [Machine.takeCandidate, setCandidate_scanPos, h.buf, h.resume]
  active := h.active
  active' := h.active'

/-- A candidate's registers are all written from the buffer and the index, none of them from the old registers. -/
theorem candidateOf_takeCandidate (h : SameScan s s') (i : Nat) :
    candidateOf (Machine.takeCandidate i s') = candidateOf (Machine.takeCandidate i s) := by
  simp only [candidateOf, Machine.takeCandidate, setCandidate_candStart, setCandidate_candLen, setCandidate_candSpan,
    setCandidate_scanPos, h.buf, h.resume]

theorem completeCommand (h : SameScan s s') : SameScan (completeCommand s) (completeCommand s') := { h with }

end SameScan

/-! ## The sequence of candidates, call by call -/

theorem scanAll_candidate {s : State} {i : Nat} (fuel : Nat) (active : s.status.scanActive = true)
    (found : nextCandidate s = some i) :
    scanAll (fuel + 1) s = candidateOf (takeCandidate i s) :: scanAll fuel (completeCommand (takeCandidate i s)) := by
  rw [scanAll, issueCommand_encode rfl, exec, execScanNext_candidate active found]
  rfl

theorem scanAll_done {s : State} (fuel : Nat) (active : s.status.scanActive = true) (found : nextCandidate s = none) :
    scanAll (fuel + 1) s = [] := by
  rw [scanAll, issueCommand_encode rfl, exec, execScanNext_done active found]
  rfl

theorem SameScan.scanAll_eq {s s' : State} (h : SameScan s s') (fuel : Nat) : scanAll fuel s = scanAll fuel s' := by
  induction fuel generalizing s s' with
  | zero => rfl
  | succ fuel ih =>
    cases found : nextCandidate s with
    | none => rw [scanAll_done fuel h.active found, scanAll_done fuel h.active' (h.nextCandidate_eq.trans found)]
    | some i =>
      rw [scanAll_candidate fuel h.active found, scanAll_candidate fuel h.active' (h.nextCandidate_eq.trans found),
        h.candidateOf_takeCandidate i, ih (h.takeCandidate i).completeCommand]

/-- Settles O43: `scan.start` puts both states at byte 0 of the same scan. -/
theorem scanDependsOnlyOnTheBuffer : Obligations.ScanDependsOnlyOnTheBuffer := by
  intro s s' t t' hbuf hlen hresume run run' fuel
  obtain rfl := next_inj.1 run
  obtain rfl := next_inj.1 run'
  have same : SameScan (completeCommand (beginScan s)) (completeCommand (beginScan s')) :=
    { buf := hbuf, bufLen := hlen, resume := hresume, scanPos := rfl, active := rfl, active' := rfl }
  exact same.scanAll_eq fuel

end Sys2Proof.Machine
end

section
/-! PROOF. The pipeline ends (42_scanner.md R192, 70_reset_and_hazards.md R234, R241): each candidate moves `SCAN_POS` forward in the
buffer, and no command of the loop raises an error, since
each decode has a candidate. -/

namespace Sys2Proof.Machine

/-! ## Progress (R241) -/

/-- The index a scan resumes at fits in `SCAN_POS` (R9). -/
theorem State.Inv.takeCandidate_scanPos {s : State} (h : s.Inv) {i : Nat} (found : nextCandidate s = some i) :
    (Machine.takeCandidate i s).scanPos.toNat = resumeIndex s.cfg.scanResume i (frameLength s.buf i) := by
  obtain ⟨-, inside, -, -, -⟩ := nextCandidate_eq_some found
  have hbuf := h.bufLen_le
  have hlen := frameLength_le s.buf i
  have hnext := (resumeIndex_bounds s.cfg.scanResume i (frameLength s.buf i)).2
  exact Nat.mod_eq_of_lt (by omega)

/-- A candidate lies before the buffer's end, at `SCAN_POS` or after it, and the scan resumes at least two bytes beyond it. -/
theorem State.Inv.takeCandidate_progress {s : State} (h : s.Inv) {i : Nat} (found : nextCandidate s = some i) :
    s.scanPos.toNat ≤ i ∧ i < s.bufLen.toNat ∧ i + 2 ≤ (Machine.takeCandidate i s).scanPos.toNat := by
  obtain ⟨hpos, inside, -, positive, -⟩ := nextCandidate_eq_some found
  have hnext := (resumeIndex_bounds s.cfg.scanResume i (frameLength s.buf i)).1
  rw [h.takeCandidate_scanPos found]
  omega

/-! ## The loop of R192 -/

/-- The last call of the loop: no candidate is left. -/
theorem pipelineLoop_done {s : State} (fuel : Nat) (active : s.status.scanActive = true) (found : nextCandidate s = none) :
    pipelineLoop (fuel + 1) s = some ([], completeCommand (endScan (max s.scanPos.toNat s.bufLen.toNat) s)) := by
  rw [pipelineLoop, issueCommand_encode rfl, exec, execScanNext_done active found]
  rfl

/-- With a candidate, `dec.cand` raises no error and leaves the scan as it is (60_exceptions.md R216). -/
theorem State.Inv.decCand_keepsScan {s : State} (h : s.Inv) (valid : s.status.candValid = true) :
    ∃ t, exec .decCand s = .next t ∧ t.Inv ∧ t.bufLen = s.bufLen ∧ t.scanPos = s.scanPos ∧
      t.status.scanActive = s.status.scanActive ∧ t.status.errSticky = s.status.errSticky := by
  obtain ⟨wl, hd, -⟩ := h.decodesCandidate valid
  obtain ⟨t, hexec, run, -⟩ := hd.answers h
  exact ⟨t, hexec, h.of_commandEnds (exec_ends hexec), by simp [decodeWindow_frame run]⟩

/-- A call that yields a candidate: it is decoded, and the loop goes on in the state `v` after the decode. -/
theorem State.Inv.pipelineLoop_candidate {s : State} {i : Nat} (h : s.Inv) (active : s.status.scanActive = true)
    (found : nextCandidate s = some i) :
    ∃ v, v.Inv ∧ v.bufLen = s.bufLen ∧ v.scanPos = (Machine.takeCandidate i s).scanPos ∧ v.status.scanActive = true ∧
      v.status.errSticky = s.status.errSticky ∧
      ∀ fuel, pipelineLoop (fuel + 1) s = (pipelineLoop fuel v).map fun p => (frameResult v :: p.1, p.2) := by
  have hu : (Machine.completeCommand (Machine.takeCandidate i s)).Inv := (h.takeCandidate active found).completeCommand
  have notDone : (Machine.completeCommand (Machine.takeCandidate i s)).status.scanDone = false :=
    Bool.eq_false_iff.2 fun done => Bool.noConfusion (hu.scanDone done).2.1
  obtain ⟨v, decoded, hv, hlen, hpos, hactive, hsticky⟩ := hu.decCand_keepsScan rfl
  refine ⟨v, hv, hlen, hpos, hactive.trans active, hsticky, fun fuel => ?_⟩
  rw [pipelineLoop, issueCommand_encode rfl, exec, execScanNext_candidate active found]
  simp only [notDone, Bool.false_eq_true, if_false, issueCommand_encode (i := .decCand) rfl, decoded]

/-- With more calls left than bytes from `SCAN_POS` on, the loop ends, and yields fewer frame results than it has calls. -/
theorem pipelineLoop_ends {fuel : Nat} {s : State} (h : s.Inv) (active : s.status.scanActive = true)
    (enough : s.bufLen.toNat - s.scanPos.toNat < fuel) :
    ∃ rs t, pipelineLoop fuel s = some (rs, t) ∧ t.status.scanDone = true ∧ rs.length < fuel ∧ t.status.err = none ∧
      t.status.errSticky = s.status.errSticky := by
  induction fuel generalizing s with
  | zero => exact absurd enough (Nat.not_lt_zero _)
  | succ fuel ih =>
    cases found : nextCandidate s with
    | none => exact ⟨_, _, pipelineLoop_done fuel active found, rfl, Nat.succ_pos fuel, rfl, rfl⟩
    | some i =>
      obtain ⟨v, hv, hlen, hnext, hactive, hsticky, step⟩ := h.pipelineLoop_candidate active found
      obtain ⟨hpos, inside, progress⟩ := h.takeCandidate_progress found
      have enough' : v.bufLen.toNat - v.scanPos.toNat < fuel := by rw [hlen, hnext]; omega
      obtain ⟨rs, t, rest, done, few, noErr, sticky⟩ := ih hv hactive enough'
      refine ⟨frameResult v :: rs, t, ?_, done, Nat.succ_lt_succ few, noErr, sticky.trans hsticky⟩
      rw [step, rest, Option.map_some]

/-! ## From the load on (R234) -/

theorem hostLoad_fits {s : State} {bytes : List Byte} (fits : bytes.length ≤ s.cfg.bufBytesMax) :
    hostLoad bytes s = .next (loadBuffer bytes s) := by
  rw [hostLoad, if_neg (Nat.not_lt.2 fits)]

theorem runScan_eq (s : State) :
    runScan s = pipelineLoop (s.bufLen.toNat + 1) (completeCommand (beginScan s)) := by
  rw [runScan, issueCommand_encode rfl]
  rfl

/-- Settles O44: the scan starts at byte 0, so `BUF_LEN + 1` calls are more than the bytes that are left. -/
theorem pipelineEndsByItself : Obligations.PipelineEndsByItself := by
  intro s bytes hs fits
  have loaded : (loadBuffer bytes s).Inv := hs.loadBuffer fits
  have hlen : (loadBuffer bytes s).bufLen.toNat ≤ bytes.length := Nat.mod_le _ _
  obtain ⟨rs, t, run, done, few, noErr, sticky⟩ :=
    pipelineLoop_ends (fuel := (loadBuffer bytes s).bufLen.toNat + 1) loaded.beginScan.completeCommand rfl
      (Nat.lt_succ_of_le (Nat.sub_le ..))
  refine ⟨rs, t, ?_, done, Nat.le_trans (Nat.le_of_lt_succ few) hlen, noErr, sticky⟩
  rw [runPipeline, hostLoad_fits fits]
  exact (runScan_eq _).trans run

end Sys2Proof.Machine
end

section
/-! PROOF. Errors (60_exceptions.md R200 to R206): a command succeeds and keeps `ERR_STICKY`, or it fails with an error of its row of
R203 and writes nothing but what R205 names. -/

namespace Sys2Proof.Machine

/-! ## How a command fails (R203, R205) -/

/-- The command `i` fails with an error on the way from `s` to `t`: a check before any write fails, or a read leaves the window, which
ends the cursor too. -/
inductive FailsWith (s t : State) (i : Instr) : CmdError → Prop where
  | raised (e : CmdError) (cause : Raises s i e) (h : t = raiseError e s) : FailsWith s t i e
  | readPast (w : Nat) (hi : i = .rdU w ∨ i = .rdS w) (h : t = raiseError .outOfRange (closeCursor s)) :
    FailsWith s t i .outOfRange

theorem FailsWith.err {s t : State} {i : Instr} {e : CmdError} (h : FailsWith s t i e) : t.status.err = some e := by
  cases h with
  | raised _ _ ht => simp [ht]
  | readPast _ _ ht => simp [ht]

theorem FailsWith.errSticky {s t : State} {i : Instr} {e : CmdError} (h : FailsWith s t i e) :
    t.status.errSticky = true := by
  cases h with
  | raised _ _ ht => simp [ht]
  | readPast _ _ ht => simp [ht]

/-- `OUT_OF_RANGE` is no error of the checks made before any write. -/
theorem Raises.ne_outOfRange {s : State} {i : Instr} {e : CmdError} (h : Raises s i e) : e ≠ .outOfRange := by
  cases h <;> decide

/-- A command succeeds and keeps `ERR_STICKY`, or it fails. -/
theorem CommandEnds.succeeds_or_fails {s t : State} {i : Instr} (h : CommandEnds s t i) :
    (t.status.err = none ∧ t.status.errSticky = s.status.errSticky) ∨ ∃ e, FailsWith s t i e := by
  cases h with
  | raised _ e cause ht => exact .inr ⟨e, .raised e cause ht⟩
  | nop ht => exact .inl (by simp [ht])
  | opened _ ht => exact .inl (by simp [ht])
  | read _ _ _ _ _ _ _ ht => exact .inl (by simp [ht])
  | readPast _ w hi _ _ ht => exact .inr ⟨.outOfRange, .readPast w hi ht⟩
  | cleared ht => exact .inl (by simp [ht])
  | scanStarted ht => exact .inl (by simp [ht])
  | candidate _ _ _ ht => exact .inl (by simp [ht, takeCandidate])
  | scanEnded _ _ ht => exact .inl (by simp [ht])
  | decodedCandidate _ _ run => exact .inl (by simp [decodeWindow_frame run])
  | decodedWindow _ run => exact .inl (by simp [decodeWindow_frame run])

/-- A command with no error in `ERR` keeps `ERR_STICKY`. -/
theorem CommandEnds.errSticky_of_success {s t : State} {i : Instr} (h : CommandEnds s t i) (success : t.status.err = none) :
    t.status.errSticky = s.status.errSticky := by
  rcases h.succeeds_or_fails with ⟨-, keeps⟩ | ⟨e, fails⟩
  · exact keeps
  · simp [fails.err] at success

/-- A command with an error in `ERR` failed with it. -/
theorem CommandEnds.failsWith {s t : State} {i : Instr} {e : CmdError} (h : CommandEnds s t i)
    (failed : t.status.err = some e) : FailsWith s t i e := by
  rcases h.succeeds_or_fails with ⟨success, -⟩ | ⟨e', fails⟩
  · simp [success] at failed
  · exact Option.some.inj (fails.err.symm.trans failed) ▸ fails

/-- Settles O20: a command that succeeds keeps `ERR_STICKY`, and each way to fail writes what R205 names. -/
theorem failingCommandWritesOnlyItsError : Obligations.FailingCommandWritesOnlyItsError := by
  intro i s t run
  refine ⟨(exec_ends run).errSticky_of_success, fun e failed => ?_⟩
  cases (exec_ends run).failsWith failed with
  | raised _ cause ht => subst ht; exact ⟨rfl, .inl ⟨cause.ne_outOfRange, rfl⟩⟩
  | readPast _ _ ht => subst ht; exact ⟨rfl, .inr ⟨rfl, rfl⟩⟩

/-- Settles O21: the ways to fail are those of the table; an accepted decode finishes with an outcome, and every other command keeps
`FR_INFO`. -/
theorem commandsEndAsTheTableSays : Obligations.CommandsEndAsTheTableSays := by
  refine ⟨fun i s t run => ⟨fun e failed => ?_, fun hi success => ?_, fun other => ?_⟩, fun v r s rejected => ?_⟩
  · cases (exec_ends run).failsWith failed with
    | raised _ cause _ =>
      cases cause with
      | noCursor _ _ hi _ => rcases hi with rfl | rfl <;> exact .inl rfl
      | windowRange _ hi _ => rcases hi with rfl | rfl <;> rfl
      | noScan _ => rfl
      | noCandidate _ => rfl
    | readPast _ hi _ => rcases hi with rfl | rfl <;> exact .inr rfl
  · obtain ⟨_, _, -, decoded⟩ := (exec_ends run).decodes hi success
    obtain ⟨o, outcome, -⟩ := decodeWindow_counts decoded
    simp [outcome]
  · exact ((exec_ends run).keepsRecord other).frInfo
  · exact ⟨raiseError .illegalCmd s, issueCommand_of_error rejected s, rfl, rfl⟩

/-! ## The sticky flag (R206) and the idle block (R215) -/

/-- A command leaves `ERR_STICKY` set, whether it succeeds or fails. -/
theorem CommandEnds.errSticky {s t : State} {i : Instr} (h : CommandEnds s t i) (sticky : s.status.errSticky = true) :
    t.status.errSticky = true := by
  rcases h.succeeds_or_fails with ⟨-, keeps⟩ | ⟨_, fails⟩
  · exact keeps.trans sticky
  · exact fails.errSticky

theorem ActEnds.errSticky {s t : State} {a : HostAction} (h : ActEnds s t a) (sticky : s.status.errSticky = true) :
    t.status.errSticky = true := by
  cases h with
  | illegal _ _ _ ht => simp [ht]
  | command _ _ _ ran => exact (exec_ends ran).errSticky sticky
  | operand0 _ ht => simp [ht, sticky]
  | operand1 _ ht => simp [ht, sticky]
  | ignored _ _ _ ht => simp [ht, sticky]
  | replied _ ht => simp [ht, sticky]
  | loaded _ _ ht => simp [ht, sticky]

/-- Settles O19: no host action clears the flag. -/
theorem stickyErrorIsNeverCleared : Obligations.StickyErrorIsNeverCleared :=
  fun _ _ _ run => (hostAct_ends run).errSticky

/-- Settles O16: a step takes an action only off a queue that has one. -/
theorem idleBlockKeepsItsState : Obligations.IdleBlockKeepsItsState := by
  intro s idle
  rw [step, idle]

end Sys2Proof.Machine
end

section
/-! PROOF. A decode and the scanner (60_exceptions.md R216): a decode keeps everything `scan.next` reads or leaves standing, and
`scan.next` keeps two states alike that are alike in it. -/

namespace Sys2Proof.Machine

/-- `t` has the buffer, the resume rule, the scan registers and the scan flags of `s`. -/
structure KeepsScan (s t : State) : Prop where
  buf : t.buf = s.buf
  bufLen : t.bufLen = s.bufLen
  resume : t.cfg.scanResume = s.cfg.scanResume
  scanPos : t.scanPos = s.scanPos
  candStart : t.candStart = s.candStart
  candLen : t.candLen = s.candLen
  candSpan : t.candSpan = s.candSpan
  scanActive : t.status.scanActive = s.status.scanActive
  scanDone : t.status.scanDone = s.status.scanDone
  candValid : t.status.candValid = s.status.candValid

/-- A decode command keeps the scan, whether it decodes or raises an error. -/
theorem CommandEnds.keepsScan {s t : State} {i : Instr} (h : CommandEnds s t i) (hi : i = .decCand ∨ i = .decWin) :
    KeepsScan s t := by
  rcases h.succeeds_or_fails with ⟨success, -⟩ | ⟨e, fails⟩
  · obtain ⟨_, _, -, run⟩ := h.decodes hi success
    constructor <;> simp [decodeWindow_frame run]
  · cases fails with
    | raised _ _ ht => constructor <;> simp [ht]
    | readPast _ _ ht => constructor <;> simp [ht]

namespace KeepsScan

variable {s t : State}

theorem candidateOf_eq (h : KeepsScan s t) : candidateOf t = candidateOf s := by
  simp only [candidateOf, h.candStart, h.candLen, h.candSpan, h.scanPos]

theorem sameScan (h : KeepsScan s t) (active : s.status.scanActive = true) : SameScan s t :=
  { h with active := active, active' := h.scanActive.trans active }

theorem raiseError (h : KeepsScan s t) (e : CmdError) : KeepsScan (raiseError e s) (raiseError e t) := { h with }

theorem completeCommand (h : KeepsScan s t) : KeepsScan (completeCommand s) (completeCommand t) := { h with }

theorem endScan (h : KeepsScan s t) (i : Nat) : KeepsScan (endScan i s) (endScan i t) :=
  { h with scanPos := rfl, scanDone := rfl, candValid := rfl }

/-- A candidate's registers come from the buffer and the index alone. -/
theorem takeCandidate (h : KeepsScan s t) (active : s.status.scanActive = true) (i : Nat) :
    KeepsScan (takeCandidate i s) (takeCandidate i t) :=
  have same := (h.sameScan active).candidateOf_takeCandidate i
  { buf := h.buf
    bufLen := h.bufLen
    resume := h.resume
    scanPos := congrArg Candidate.pos same
    candStart := congrArg Candidate.start same
    candLen := congrArg Candidate.len same
    candSpan := congrArg Candidate.span same
    scanActive := h.scanActive
    scanDone := h.scanDone
    candValid := rfl }

/-- `scan.next` ends in the same way from both states (42_scanner.md R190). -/
theorem scanNext (h : KeepsScan s t) {u : State} (run : exec .scanNext s = .next u) :
    ∃ v, exec .scanNext t = .next v ∧ KeepsScan u v := by
  rcases execScanNext_cases s with ⟨inactive, ends⟩ | ⟨active, i, found, ends⟩ | ⟨active, found, ends⟩
  all_goals obtain rfl := next_inj.1 (ends.symm.trans run)
  · exact ⟨_, execScanNext_noScan (h.scanActive.trans inactive), h.raiseError .noScan⟩
  · have found' := (h.sameScan active).nextCandidate_eq.trans found
    exact ⟨_, execScanNext_candidate (h.scanActive.trans active) found', (h.takeCandidate active i).completeCommand⟩
  · have found' := (h.sameScan active).nextCandidate_eq.trans found
    refine ⟨_, execScanNext_done (h.scanActive.trans active) found', ?_⟩
    rw [h.scanPos, h.bufLen]
    exact (h.endScan _).completeCommand

end KeepsScan

/-- Settles O45: a decode keeps the scan, and so `scan.next` ends after it as it does instead of it. -/
theorem decodeIsInvisibleToTheScan : Obligations.DecodeIsInvisibleToTheScan := by
  intro i s t u hi decoded next
  have keeps : KeepsScan s t := (exec_ends decoded).keepsScan hi
  obtain ⟨v, next', after⟩ := keeps.scanNext next
  exact ⟨v, next', after.candidateOf_eq, after.candValid, after.scanDone, after.scanActive,
    keeps.candidateOf_eq, keeps.scanActive, keeps.scanDone, keeps.candValid, keeps.buf⟩

end Sys2Proof.Machine
end

section
/-! PROOF. The hazards between commands and the reset state (70_reset_and_hazards.md R233, R239, R241): the progress of one
`scan.next`, the cursor after a decode, and every command in the reset state. -/

namespace Sys2Proof.Machine

/-! ## `scan.next` makes progress (R241) -/

/-- Settles O42: of the three ends of `scan.next` only one leaves a candidate, and that one makes progress. -/
theorem scanNextMakesProgress : Obligations.ScanNextMakesProgress := by
  intro s t hs active run valid
  rcases execScanNext_cases s with ⟨inactive, -⟩ | ⟨-, i, found, ends⟩ | ⟨-, -, ends⟩
  · exact absurd (inactive.symm.trans active) Bool.false_ne_true
  · obtain rfl := next_inj.1 (ends.symm.trans run)
    obtain ⟨hpos, inside, progress⟩ := hs.takeCandidate_progress found
    have hbuf := hs.bufLen_le
    have hstart : (completeCommand (takeCandidate i s)).candStart.toNat = i := Nat.mod_eq_of_lt (by omega)
    rw [hstart]
    exact ⟨hpos, progress, inside⟩
  · obtain rfl := next_inj.1 (ends.symm.trans run)
    exact absurd valid Bool.false_ne_true

/-! ## A read after a decode (R239) -/

/-- Settles O57: a decode closes its cursor and keeps its window, so a read after it has no cursor. -/
theorem readAfterADecodeHasNoCursor : Obligations.ReadAfterADecodeHasNoCursor := by
  intro i s t ws wl w hs hd hexec
  obtain ⟨fits, -⟩ := hd.decodes hs
  obtain ⟨run, outcome⟩ := hd.outcome hs hexec
  obtain ⟨-, -, hoff⟩ := outcome.bounds (hs.ready fits)
  have closed : t.status.curValid = false := by simp only [decodeWindow_frame run]
  have hstart : t.winStart = ws := by simp only [decodeWindow_frame run]
  have hlen : t.winLen = wl := by simp only [decodeWindow_frame run]
  exact ⟨closed, hstart, hlen, hoff, readField_noCursor false w closed, readField_noCursor true w closed⟩

/-! ## The reset state (R233) -/

/-- Every read through a cursor over an empty window is out of range (40_cursor.md R113). -/
theorem exec_reads_emptyWindow {s : State} {w : Nat} (hw : 1 ≤ w) (valid : s.status.curValid = true) (empty : s.winLen = 0) :
    exec (.rdU w) s = .next (raiseError .outOfRange (closeCursor s)) ∧
      exec (.rdS w) s = .next (raiseError .outOfRange (closeCursor s)) := by
  have past : 8 * s.winLen.toNat < s.curOff.toNat + w := by
    rw [empty]
    exact Nat.lt_of_lt_of_le hw (Nat.le_add_left w _)
  exact ⟨readField_past false valid past, readField_past true valid past⟩

/-- A decode of an empty window is truncated at its first read, whatever the registry (41_decoder.md R143). -/
theorem decodeWindow_empty (ws : Word) (s : State) :
    decodeWindow ws 0 s = .next (finishFrame .truncated (clearFrame (openCursor ws 0 s))) := by
  have past : readBits 8 (clearFrame (openCursor ws 0 s)) = .past := readBits_past (by simp)
  simp only [decodeWindow, fixedFields, emitFields, past]

/-- After reset the buffer is empty, so the operands name a window of it only if both are 0. -/
theorem resetWith_args_range (c : Config) {a l : Word} (h : a.toNat + l.toNat ≠ 0) :
    (setArg0 a (setArg1 l (State.resetWith c))).bufLen.toNat <
      (setArg0 a (setArg1 l (State.resetWith c))).arg0.toNat + (setArg0 a (setArg1 l (State.resetWith c))).arg1.toNat :=
  Nat.pos_of_ne_zero h

/-- Settles O25: after reset no flag is set and the buffer is empty, which decides the test of each command. -/
theorem commandsInTheResetState : Obligations.CommandsInTheResetState := by
  intro c
  have argsFit : (State.resetWith c).arg0.toNat + (State.resetWith c).arg1.toNat ≤ (State.resetWith c).bufLen.toNat :=
    Nat.le_refl 0
  refine ⟨rfl, rfl, ⟨_, rfl, rfl, rfl⟩, ?reads, execScanNext_noScan rfl, execDecCand_noCandidate rfl, ?curSet, ?decWin, ?range⟩
  case reads =>
    have noCursor : (State.resetWith c).status.curValid = false := rfl
    exact fun w _ _ => ⟨readField_noCursor false w noCursor, readField_noCursor true w noCursor⟩
  case curSet =>
    refine ⟨_, execCurSet_fits argsFit, rfl, rfl, fun w hw _ => ?_⟩
    obtain ⟨unsigned, signed⟩ :=
      exec_reads_emptyWindow (s := completeCommand (openCursor 0 0 (State.resetWith c))) hw rfl rfl
    exact ⟨⟨_, unsigned, rfl⟩, ⟨_, signed, rfl⟩⟩
  case decWin => exact ⟨_, (execDecWin_fits argsFit).trans (decodeWindow_empty _ _), rfl, rfl, rfl⟩
  case range =>
    intro a l operands
    have range := resetWith_args_range c operands
    exact ⟨⟨_, execCurSet_range range, rfl⟩, ⟨_, execDecWin_range range, rfl⟩⟩

end Sys2Proof.Machine
end
